-- ==== Sys2Proof/Word.lean ====
section
/-! DEFINITION. The two value widths of the hardware (spec/00_scope.md R8, R9). -/

namespace Sys2Proof

/-- A data register, a flag helper's argument, one memory byte: 8 bits, unsigned (R8, R9). -/
abbrev Byte := BitVec 8

/-- The program counter, an address, a 16-bit operand: 16 bits, unsigned (R8, R9). -/
abbrev Word := BitVec 16

end Sys2Proof
end

