-- ==== Sys2Proof/Config.lean ====
section
/-! DEFINITION. The two parameters the spec leaves open by name (spec/00_scope.md R8; OPEN-1 and OPEN-2 of
spec/92_eei_decisions.md), and the values it gives them. Every other parameter of R8 is fixed by the spec and
stands where it is used. -/

namespace Sys2Proof

/-- `POWER_ON_STATE` (spec/70_reset_and_hazards.md R148): what the registers and the seven flags hold between
construction and the first reset. -/
inductive PowerOnState where
  /-- They hold no value: a step faults with ReadBeforeReset and a host read returns no value. -/
  | unwritten
  /-- Each of them is 0. -/
  | zero
deriving DecidableEq, Repr

/-- The configuration of one engine. -/
structure Config where
  /-- `POWER_ON_STATE` (OPEN-1). -/
  powerOnState : PowerOnState
  /-- `ZP_POINTER_WRAP` (OPEN-2): true where the high byte of a zero-page pointer at 0xFF is read from 0x0000,
  false where it is read from 0x0100. -/
  zpPointerWrap : Bool
deriving DecidableEq, Repr

/-- The values spec/00_scope.md R8 gives the two parameters. DESIGN CHOICE of the spec (D5, D10): log entries 2
and 3. -/
def Config.ofSpec : Config := ⟨.unwritten, true⟩

end Sys2Proof
end

