-- ==== Sys2Proof/Syntax.lean ====
section
/-! DEFINITION. The instructions as syntax: one constructor for each row of spec/opcode_table.json, and the names
the catalog's descriptors use (spec/30_encoding.md R58 to R64, spec/41_address_resolver.md R91). -/

namespace Sys2Proof

/-- The eleven addressing modes (spec/41_address_resolver.md R91; spec/90_conflicts.md C1). -/
inductive Mode where
  | implicit | immediate | zeroPage | zeroPageX | zeroPageY | absolute | absoluteX | absoluteY
  | indirect | indirectX | indirectY
deriving DecidableEq, Repr

/-- The five operations of the catalog (spec/30_encoding.md R63). -/
inductive Mnemonic where
  | brk | lda | jmp | inx | tax
deriving DecidableEq, Repr

/-- The three instruction formats, one for each operand count (spec/30_encoding.md R58). -/
inductive Format where
  | impl | op8 | op16
deriving DecidableEq, Repr

/-- The number of operand bytes of a format (R58). -/
def Format.operandBytes : Format → Nat
  | .impl => 0
  | .op8 => 1
  | .op16 => 2

/-- The format of a mode: how many operand bytes it reads (spec/30_encoding.md R64). -/
def Mode.format : Mode → Format
  | .implicit => .impl
  | .immediate | .zeroPage | .zeroPageX | .zeroPageY | .indirectX | .indirectY => .op8
  | .absolute | .absoluteX | .absoluteY | .indirect => .op16

/-- An instruction descriptor, the value of a catalog row (spec/30_encoding.md R60). `cycles` is informative: no
rule reads it (spec/70_reset_and_hazards.md R157). -/
structure Descriptor where
  mnemonic : Mnemonic
  length : Nat
  cycles : Nat
  mode : Mode
deriving DecidableEq, Repr

/-- One constructor for each of the twelve rows (spec/30_encoding.md R63). A byte operand is `op8` of R66, a word
operand `op16` of R67. -/
inductive Instr where
  /-- `BRK`, 0x00 (R107). -/
  | brk
  /-- `LDA #$nn`, 0xA9 (R111). -/
  | ldaImm (v : Byte)
  /-- `LDA $nn`, 0xA5 (R112). -/
  | ldaZp (o : Byte)
  /-- `LDA $nn,X`, 0xB5 (R113). -/
  | ldaZpX (o : Byte)
  /-- `LDA $nnnn`, 0xAD (R114). -/
  | ldaAbs (w : Word)
  /-- `LDA $nnnn,X`, 0xBD (R115). -/
  | ldaAbsX (w : Word)
  /-- `LDA $nnnn,Y`, 0xB9 (R116). -/
  | ldaAbsY (w : Word)
  /-- `LDA ($nn,X)`, 0xA1 (R117). -/
  | ldaIndX (o : Byte)
  /-- `LDA ($nn),Y`, 0xB1 (R118). -/
  | ldaIndY (o : Byte)
  /-- `JMP $nnnn`, 0x4C (R119). -/
  | jmpAbs (w : Word)
  /-- `INX`, 0xE8 (R120). -/
  | inx
  /-- `TAX`, 0xAA (R121). -/
  | tax
deriving DecidableEq, Repr

/-- The operand an instruction carries. -/
inductive Operand where
  | none
  | byte (o : Byte)
  | word (w : Word)
deriving DecidableEq, Repr

/-- The operation of an instruction. -/
def Instr.mnemonic : Instr → Mnemonic
  | .brk => .brk
  | .ldaImm _ | .ldaZp _ | .ldaZpX _ | .ldaAbs _ | .ldaAbsX _ | .ldaAbsY _ | .ldaIndX _ | .ldaIndY _ => .lda
  | .jmpAbs _ => .jmp
  | .inx => .inx
  | .tax => .tax

/-- The addressing mode of an instruction. -/
def Instr.mode : Instr → Mode
  | .brk | .inx | .tax => .implicit
  | .ldaImm _ => .immediate
  | .ldaZp _ => .zeroPage
  | .ldaZpX _ => .zeroPageX
  | .ldaAbs _ | .jmpAbs _ => .absolute
  | .ldaAbsX _ => .absoluteX
  | .ldaAbsY _ => .absoluteY
  | .ldaIndX _ => .indirectX
  | .ldaIndY _ => .indirectY

/-- The operand of an instruction. -/
def Instr.operand : Instr → Operand
  | .brk | .inx | .tax => .none
  | .ldaImm o | .ldaZp o | .ldaZpX o | .ldaIndX o | .ldaIndY o => .byte o
  | .ldaAbs w | .ldaAbsX w | .ldaAbsY w | .jmpAbs w => .word w

end Sys2Proof
end

