-- ==== Sys2Proof/WellFormed.lean ====
section
/-! DEFINITION. The checks on instructions, on descriptors and on a catalog. -/

namespace Sys2Proof

/-- The format an operand fills (spec/30_encoding.md R58). -/
def Operand.format : Operand → Format
  | .none => .impl
  | .byte _ => .op8
  | .word _ => .op16

/-- An instruction's operand fills the format of its mode (spec/30_encoding.md R64). No operand value is reserved
(R71), so that is the whole check, and the types already make every instruction pass it. -/
def Instr.wf (i : Instr) : Bool := i.operand.format == i.mode.format

/-- A well-formed instruction whose opcode may stand at `pc0`: its 16-bit operand, where it has one, is a word
access at `pc0 + 1`, and a word access at 0xFFFF is rejected (spec/30_encoding.md R59). -/
def Instr.wfAt (pc0 : Word) (i : Instr) : Bool :=
  i.wf && !(i.operand.format == .op16 && pc0 == 0xFFFE#16)

/-- A descriptor's length is 1 plus the operand bytes of its mode (spec/30_encoding.md R64). -/
def Descriptor.wf (d : Descriptor) : Bool := d.length == 1 + d.mode.format.operandBytes

/-- A catalog is a partial function from opcode bytes to well-formed descriptors (spec/30_encoding.md R61). -/
def catalogWf : List (Byte × Descriptor) → Bool
  | [] => true
  | (op, d) :: rows => d.wf && !(rows.map Prod.fst).contains op && catalogWf rows

end Sys2Proof
end

