-- ==== Sys2Proof/Decode.lean ====
section
/-! DEFINITION. The fetch_decode_unit's table (spec/30_encoding.md R63), the decoder and the encoder, the assembler
text of R75, and the byte-order helpers of spec/00_scope.md R9. -/

namespace Sys2Proof

/-- `v[7:0]` of a word (spec/00_scope.md R9). -/
def lowByte (w : Word) : Byte := w.extractLsb' 0 8

/-- `v[15:8]` of a word (R9). -/
def highByte (w : Word) : Byte := w.extractLsb' 8 8

/-- `{h, l}`: the word with high byte `h` and low byte `l` (R9). -/
def wordOf (h l : Byte) : Word := h ++ l

/-- `zext_16(b)` (R9). -/
def zext16 (b : Byte) : Word := b.setWidth 16

/-- One row: the opcode byte, its descriptor (R60), and the entry of the parallel handler table of R62, here the
instruction made from the operand bytes at `pc0 + 1` and `pc0 + 2` (low byte first, R67). -/
structure Row where
  opcode : Byte
  descriptor : Descriptor
  make : Byte → Byte → Instr

/-- The twelve rows of spec/30_encoding.md R63, in its order. The bytes other than 0x00, 0xA9 and 0xAA, and the
cycle costs, are the spec's from general knowledge (G2, G5): log entry 4. -/
def catalog : List Row := [
  ⟨0x00, ⟨.brk, 1, 7, .implicit⟩, fun _ _ => .brk⟩,
  ⟨0xA9, ⟨.lda, 2, 2, .immediate⟩, fun l _ => .ldaImm l⟩,
  ⟨0xA5, ⟨.lda, 2, 3, .zeroPage⟩, fun l _ => .ldaZp l⟩,
  ⟨0xB5, ⟨.lda, 2, 4, .zeroPageX⟩, fun l _ => .ldaZpX l⟩,
  ⟨0xAD, ⟨.lda, 3, 4, .absolute⟩, fun l h => .ldaAbs (wordOf h l)⟩,
  ⟨0xBD, ⟨.lda, 3, 4, .absoluteX⟩, fun l h => .ldaAbsX (wordOf h l)⟩,
  ⟨0xB9, ⟨.lda, 3, 4, .absoluteY⟩, fun l h => .ldaAbsY (wordOf h l)⟩,
  ⟨0xA1, ⟨.lda, 2, 6, .indirectX⟩, fun l _ => .ldaIndX l⟩,
  ⟨0xB1, ⟨.lda, 2, 5, .indirectY⟩, fun l _ => .ldaIndY l⟩,
  ⟨0x4C, ⟨.jmp, 3, 3, .absolute⟩, fun l h => .jmpAbs (wordOf h l)⟩,
  ⟨0xE8, ⟨.inx, 1, 2, .implicit⟩, fun _ _ => .inx⟩,
  ⟨0xAA, ⟨.tax, 1, 2, .implicit⟩, fun _ _ => .tax⟩]

/-- The row of an opcode byte, if it is mapped (R61, R69, R70). -/
def rowOf (op : Byte) : Option Row := catalog.find? (fun r => r.opcode == op)

/-- `Catalog[op]`: the descriptor of an opcode byte, if it is mapped (R79). -/
def lookup (op : Byte) : Option Descriptor := (rowOf op).map Row.descriptor

/-- Why a byte sequence is no instruction. -/
inductive DecodeError where
  /-- There is no opcode byte. -/
  | empty
  /-- The opcode byte has no catalog row (R70). -/
  | unknownOpcode (op : Byte)
  /-- The sequence ends before the operand bytes of the opcode's mode. -/
  | truncated (op : Byte)
deriving DecidableEq, Repr

/-- The instruction at the front of a byte sequence, and the bytes after it. The opcode byte alone says how many
operand bytes follow (R65). -/
def decode : List Byte → Except DecodeError (Instr × List Byte)
  | [] => .error .empty
  | op :: rest =>
    match rowOf op with
    | none => .error (.unknownOpcode op)
    | some r =>
      match r.descriptor.mode.format, rest with
      | .impl, rest => .ok (r.make 0 0, rest)
      | .op8, b1 :: rest => .ok (r.make b1 0, rest)
      | .op16, b1 :: b2 :: rest => .ok (r.make b1 b2, rest)
      | .op8, [] => .error (.truncated op)
      | .op16, [] => .error (.truncated op)
      | .op16, [_] => .error (.truncated op)

/-- The opcode byte of an instruction (the opcode column of R63). -/
def Instr.opcode : Instr → Byte
  | .brk => 0x00
  | .ldaImm _ => 0xA9
  | .ldaZp _ => 0xA5
  | .ldaZpX _ => 0xB5
  | .ldaAbs _ => 0xAD
  | .ldaAbsX _ => 0xBD
  | .ldaAbsY _ => 0xB9
  | .ldaIndX _ => 0xA1
  | .ldaIndY _ => 0xB1
  | .jmpAbs _ => 0x4C
  | .inx => 0xE8
  | .tax => 0xAA

/-- The bytes of an operand in memory order, the low byte first (R58, R67). -/
def Operand.bytes : Operand → List Byte
  | .none => []
  | .byte o => [o]
  | .word w => [lowByte w, highByte w]

/-- The bytes of an instruction in memory order (R58). -/
def encode (i : Instr) : List Byte := i.opcode :: i.operand.bytes

/-- The three bytes of an instruction numbered as spec/opcode_table.json numbers its bits: bits 7..0 are the first
byte, bits 15..8 the second, bits 23..16 the third; every bit from `nbits` up is 0. -/
def tableBytes (nbits w : Nat) : List Byte :=
  let v := w % 2 ^ nbits
  [BitVec.ofNat 8 v, BitVec.ofNat 8 (v / 256), BitVec.ofNat 8 (v / 65536)]

/-- The instruction the decoder reads from an instruction's table word. -/
def decodeTableWord (nbits w : Nat) : Option Instr :=
  match decode (tableBytes nbits w) with
  | .ok (i, _) => some i
  | .error _ => none

/-- One hexadecimal digit. -/
def hexDigit (n : BitVec 4) : Char :=
  ['0', '1', '2', '3', '4', '5', '6', '7', '8', '9', 'A', 'B', 'C', 'D', 'E', 'F'].getD n.toNat '0'

/-- A byte as two hexadecimal digits. -/
def hexByte (b : Byte) : List Char := [hexDigit (b.extractLsb' 4 4), hexDigit (b.extractLsb' 0 4)]

/-- An operand as the assembler writes it: `$nn` or `$nnnn` (R75). -/
def Operand.text : Operand → List Char
  | .none => []
  | .byte o => '$' :: hexByte o
  | .word w => '$' :: (hexByte (highByte w) ++ hexByte (lowByte w))

/-- The mnemonic as spec/30_encoding.md R63 spells it. -/
def Mnemonic.text : Mnemonic → List Char
  | .brk => ['B', 'R', 'K']
  | .lda => ['L', 'D', 'A']
  | .jmp => ['J', 'M', 'P']
  | .inx => ['I', 'N', 'X']
  | .tax => ['T', 'A', 'X']

/-- The operand field of each addressing mode, for an operand written `o` (the syntax column of R75). -/
def Mode.operandText (o : List Char) : Mode → List Char
  | .implicit => []
  | .immediate => [' ', '#'] ++ o
  | .zeroPage | .absolute => ' ' :: o
  | .zeroPageX | .absoluteX => ' ' :: o ++ [',', 'X']
  | .zeroPageY | .absoluteY => ' ' :: o ++ [',', 'Y']
  | .indirect => [' ', '('] ++ o ++ [')']
  | .indirectX => [' ', '('] ++ o ++ [',', 'X', ')']
  | .indirectY => [' ', '('] ++ o ++ [')', ',', 'Y']

/-- An instruction in the assembler syntax of spec/30_encoding.md R75. -/
def Instr.asm (i : Instr) : List Char := i.mnemonic.text ++ i.mode.operandText i.operand.text

end Sys2Proof
end

