-- ==== Sys2Proof/Machine/State.lean ====
section
/-! DEFINITION. The architectural state of one engine as plain data (spec/10_state.md R17 to R37), the reasons a
step stops, and the state after reset. -/

namespace Sys2Proof.Machine

/-- The closed list of fault reasons (spec/60_exceptions.md R123). A step that raises one answers the next state
in which the engine is `Faulted` with the reason (R122); from then on every step answers `fault` with that reason
(R128, spec/40_execution_cycle.md R77). All three are safe: the machine stops where the spec's source either stops
too or might go on (D4, D8, D10). -/
inductive Fault where
  /-- Raised by `step` when the byte fetched at `pc0` has no catalog row (R124). Code 1. Safe. -/
  | unknownOpcode (op : Byte) (pc0 : Word)
  /-- Raised by a meaning (LDA abs, LDA abs,X, LDA abs,Y, JMP abs) and by the resolver when a word read starts at
  0xFFFF (R125): the high byte would come from the nonexistent address 0x10000. Code 2. Safe. -/
  | wordAccessAtTop (a : Word)
  /-- Raised by `step` before the first reset, where the registers hold no value (R126). Code 3. Safe. -/
  | readBeforeReset
deriving DecidableEq, Repr

/-- The cause code of a fault, the spec's own numbering (spec/60_exceptions.md R123; D8). -/
def Fault.code : Fault → Nat
  | .unknownOpcode _ _ => 1
  | .wordAccessAtTop _ => 2
  | .readBeforeReset => 3

/-- Why a step has no meaning. -/
inductive Refusal where
  /-- An instruction of the table that has no meaning yet, raised by `exec`. No arm of this model raises it. Safe. -/
  | notModelled (mnemonic : String)
  /-- A handler that needs an address was given the sentinel `NONE` (spec/41_address_resolver.md R104, D19), raised
  by `cycle`. No row of the catalog leads to it. Safe. -/
  | sentinelRead
deriving DecidableEq, Repr

/-- The control state of an engine (spec/10_state.md R29). -/
inductive Engine where
  | idle
  | running
  | halted
  | faulted (r : Fault)
deriving DecidableEq, Repr

/-- The 64 KiB memory as address and byte pairs (spec/10_state.md R30) in the canonical form `Memory.wf` of
Ops.lean: addresses strictly rising, no entry equal to what an unlisted address reads as. -/
abbrev Memory := List Host.Cell

/-- The state of one engine: the tuple of spec/10_state.md R37 and the hidden state of R34. The reserved flag bit
`U` is a constant (R27) and is `reservedFlag` of Flags.lean. -/
@[ext]
structure State where
  /-- `A`, the accumulator (R18). -/
  a : Byte
  /-- `X`, index register X (R19). -/
  x : Byte
  /-- `Y`, index register Y (R20). -/
  y : Byte
  /-- `PC`, the program counter (R22). -/
  pc : Word
  /-- `C`, carry (R25). -/
  c : Bool
  /-- `Z`, zero (R25). -/
  z : Bool
  /-- `I`, interrupt-disable (R25). -/
  i : Bool
  /-- `D`, decimal (R25). -/
  d : Bool
  /-- `B`, break (R25). -/
  b : Bool
  /-- `V`, overflow (R25). -/
  v : Bool
  /-- `N`, negative (R25). -/
  n : Bool
  /-- `Mem` (R30). -/
  mem : Memory
  /-- The control state, with the fault reason (R29). -/
  engine : Engine
  /-- The `unwritten` mark of the registers and the seven flags (R34). One mark for all eleven, because only reset
  writes a marked one and it writes them all (DEDUCED: log entry 2). -/
  unwritten : Bool
deriving DecidableEq, Repr

/-- The machine right after reset: a freshly constructed engine (spec/70_reset_and_hazards.md R147) on which
`reset` has run (R141). The vector bytes of fresh memory are 0x00, so `PC` is 0x0000 (vector R-2 of
spec/95_test_vectors.md). -/
def State.reset : State where
  a := 0
  x := 0
  y := 0
  pc := 0
  c := false
  z := false
  i := false
  d := false
  b := false
  v := false
  n := false
  mem := []
  engine := .idle
  unwritten := false

end Sys2Proof.Machine
end

