-- ==== Sys2Proof/Machine/Flags.lean ====
section
/-! DEFINITION. The status flags and the alu_with_flags unit's flag computations (spec/10_state.md R25 to R28,
spec/43_load.md R108, R109). -/

namespace Sys2Proof.Machine

/-- The seven usable flags (spec/10_state.md R25). -/
inductive Flag where
  | c | z | i | d | b | v | n
deriving DecidableEq, Repr

/-- Reading one flag (the source's "test", spec/90_conflicts.md C5). -/
def State.flag (s : State) : Flag → Bool
  | .c => s.c
  | .z => s.z
  | .i => s.i
  | .d => s.d
  | .b => s.b
  | .v => s.v
  | .n => s.n

/-- Writing one flag (the source's "set" and "clear", C5). The flags are independent (R25). -/
def assignFlag (f : Flag) (v : Bool) (s : State) : State :=
  match f with
  | .c => { s with c := v }
  | .z => { s with z := v }
  | .i => { s with i := v }
  | .d => { s with d := v }
  | .b => { s with b := v }
  | .v => { s with v := v }
  | .n => { s with n := v }

/-- `set_zero_flag(v)`: Z is 1 exactly when `v` is 0x00 (spec/43_load.md R108). -/
def setZeroFlag (v : Byte) (s : State) : State := assignFlag .z (v == 0x00#8) s

/-- `set_negative_flag(v)`: N is bit 7 of `v` (spec/43_load.md R109). -/
def setNegativeFlag (v : Byte) (s : State) : State := assignFlag .n (v.getLsbD 7) s

/-- Reset's clearing of the seven usable flags (spec/70_reset_and_hazards.md R141). -/
def clearFlags (s : State) : State :=
  [Flag.c, .z, .i, .d, .b, .v, .n].foldl (fun t f => assignFlag f false t) s

/-- The reserved bit `U`, permanently 1 (spec/10_state.md R27). -/
def reservedFlag : Bool := true

/-- The status byte in the layout N V U B D I Z C, bit 7 to bit 0 (spec/10_state.md R28). Informative: no rule
reads it (D18, log entry 13). -/
def statusByte (s : State) : Byte :=
  BitVec.ofBool s.n ++ BitVec.ofBool s.v ++ BitVec.ofBool reservedFlag ++ BitVec.ofBool s.b ++
    BitVec.ofBool s.d ++ BitVec.ofBool s.i ++ BitVec.ofBool s.z ++ BitVec.ofBool s.c

end Sys2Proof.Machine
end

