-- ==== Sys2Proof/Machine/Ops.lean ====
section
/-! DEFINITION. The named operations over memory, registers and control state that the meanings share
(spec/20_memory.md, spec/40_execution_cycle.md), taking a fault among them (spec/60_exceptions.md R122). -/

namespace Sys2Proof.Machine

/-! ### Memory -/

/-- What an address that is not listed reads as: fresh memory is zero (spec/20_memory.md R43). -/
def Memory.unlisted : Byte := 0x00

/-- The byte at an address. -/
def Memory.read : Memory → Nat → Byte
  | [], _ => Memory.unlisted
  | (k, b) :: rest, addr => if k = addr then b else Memory.read rest addr

/-- Memory with one byte replaced, in canonical form: writing what an unlisted address reads as removes the
entry. -/
def Memory.write : Memory → Nat → Byte → Memory
  | [], addr, v => if v = Memory.unlisted then [] else [(addr, v)]
  | (k, b) :: rest, addr, v =>
    if addr < k then
      if v = Memory.unlisted then (k, b) :: rest else (addr, v) :: (k, b) :: rest
    else if addr = k then
      if v = Memory.unlisted then rest else (addr, v) :: rest
    else (k, b) :: Memory.write rest addr v

/-- Memory with a byte sequence written from an address upward (spec/20_memory.md R42's loop). -/
def Memory.writeList : Memory → Nat → List Byte → Memory
  | m, _, [] => m
  | m, start, v :: vs => Memory.writeList (Memory.write m start v) (start + 1) vs

/-- The entries have strictly rising addresses from `lo` up, each inside the address space, and none holds what an
unlisted address reads as. -/
def Memory.wfFrom : Nat → Memory → Bool
  | _, [] => true
  | lo, (k, b) :: rest =>
    decide (lo ≤ k) && decide (k < 65536) && decide (b ≠ Memory.unlisted) && Memory.wfFrom (k + 1) rest

/-- The canonical form of a memory. -/
def Memory.wf (m : Memory) : Bool := Memory.wfFrom 0 m

/-- `MemRead(a, 1)`: total, no side effect (spec/20_memory.md R38). -/
def readByte (s : State) (a : Word) : Byte := s.mem.read a.toNat

/-- `MemWrite(a, 1, v)`: total, unconditional (spec/20_memory.md R39). -/
def writeByte (a : Word) (v : Byte) (s : State) : State := { s with mem := s.mem.write a.toNat v }

/-- The one address a word access may not start at (spec/20_memory.md R48). -/
def topAddress : Word := 0xFFFF

/-- `MemRead(a, 2)` inside a step: the little-endian word at `a`, or the fault of spec/20_memory.md R40. -/
def readWord (s : State) (a : Word) : Except Fault Word :=
  if a = topAddress then .error (.wordAccessAtTop a)
  else .ok (wordOf (readByte s (a + 1)) (readByte s a))

/-! ### Registers -/

/-- `A <- v` (spec/00_scope.md R10). -/
def setA (v : Byte) (s : State) : State := { s with a := v }

/-- `X <- v` (R10). -/
def setX (v : Byte) (s : State) : State := { s with x := v }

/-- `pc <- target` (spec/00_scope.md R12). -/
def setPC (target : Word) (s : State) : State := { s with pc := target }

/-! ### The end of a step -/

/-- The engine's new control state. -/
def setEngine (e : Engine) (s : State) : State := { s with engine := e }

/-- The PC advance: `PC <- (PC + length) mod 65536` (spec/40_execution_cycle.md R82, R83). No handler but the
jump's writes `PC`, so `PC` still holds `pc0` here. -/
def advance (length : Nat) (s : State) : State := setPC (s.pc + BitVec.ofNat 16 length) s

/-- The end of an instruction that is neither a control transfer nor break: the advance, then `engine <- Running`
(R82, R84). -/
def finish (length : Nat) (s : State) : State := setEngine .running (advance length s)

/-- What raising a fault does to the state: `engine <- Faulted(r)`, and no register, flag or memory byte changes
(spec/60_exceptions.md R122). There is no trap entry and no return from a fault (R133, R134). -/
def takeFault (r : Fault) (s : State) : State := setEngine (.faulted r) s

/-- `raise Fault(r)`: the step ends in the faulted state (spec/00_scope.md R12). -/
def raise (r : Fault) (s : State) : Host.Outcome State Fault Refusal := .next (takeFault r s)

/-! ### Fetch -/

/-- The opcode byte at `pc0` and the two bytes operands are read from (spec/30_encoding.md R59, with its wrap). A
shorter instruction uses fewer; reads have no side effect (spec/20_memory.md R50, log entry 11). -/
def fetchBytes (s : State) : List Byte :=
  [readByte s s.pc, readByte s (s.pc + 1), readByte s (s.pc + 2)]

/-- The instruction at `PC`, if its opcode byte is mapped (spec/40_execution_cycle.md R78, R79). -/
def fetchInstr (s : State) : Option Instr :=
  match decode (fetchBytes s) with
  | .ok (i, _) => some i
  | .error _ => none

/-- Three bytes stored where the next instruction is fetched from, the inverse of `fetchBytes`. -/
def placeBytes (bs : List Byte) (s : State) : State :=
  writeByte (s.pc + 2) (bs.getD 2 0) (writeByte (s.pc + 1) (bs.getD 1 0) (writeByte s.pc (bs.getD 0 0) s))

/-- The control state in which the engine executes: its own, or Idle where no step exists from its own
(spec/40_execution_cycle.md R77). -/
def Engine.ready : Engine → Engine
  | .idle => .idle
  | .running => .running
  | .halted | .faulted _ => .idle

end Sys2Proof.Machine
end

