-- ==== Sys2Proof/Machine/Break.lean ====
section
/-! DEFINITION. The break family (spec/42_break.md). -/

namespace Sys2Proof.Machine

/-- BRK (R107): no register, flag or memory effect; `PC` advances by 1 and the engine halts. It pushes nothing,
sets no flag and reads no vector. -/
def execBrk (s : State) : Host.Outcome State Fault Refusal := .next (setEngine .halted (advance 1 s))

end Sys2Proof.Machine
end

