-- ==== Sys2Proof/Machine/Operands.lean ====
section
/-! DEFINITION. The address_resolver: the effective address of each of the eleven addressing modes
(spec/41_address_resolver.md R91 to R104). Nothing here writes state (R105). The formulas take the operand, so
that the meanings and `resolve` share them. -/

namespace Sys2Proof.Machine

/-- An effective address: a 16-bit address, or the sentinel `NONE` (R104). -/
inductive EA where
  | addr (a : Word)
  | none
deriving DecidableEq, Repr

/-- Immediate: the address of the operand byte itself (R92). -/
def eaImmediate (pc0 : Word) : Word := pc0 + 1

/-- ZeroPage (R93). -/
def eaZeroPage (op8 : Byte) : Word := zext16 op8

/-- ZeroPageX: the sum wraps mod 256 (R94). -/
def eaZeroPageX (op8 : Byte) (s : State) : Word := zext16 (op8 + s.x)

/-- ZeroPageY: the sum wraps mod 256 (R95). -/
def eaZeroPageY (op8 : Byte) (s : State) : Word := zext16 (op8 + s.y)

/-- The check of a 16-bit operand's word read at `pc0 + 1` (R96): `w` where the read is allowed. -/
def operandWord (pc0 w : Word) : Except Fault Word :=
  if pc0 + 1 = topAddress then .error (.wordAccessAtTop (pc0 + 1)) else .ok w

/-- Absolute: the operand, used directly (R96). -/
def eaAbsolute (pc0 op16 : Word) : Except Fault Word := operandWord pc0 op16

/-- AbsoluteX: the sum wraps mod 65536; a page crossing has no effect (R97, R102). -/
def eaAbsoluteX (pc0 op16 : Word) (s : State) : Except Fault Word :=
  (operandWord pc0 op16).map (· + zext16 s.x)

/-- AbsoluteY (R98). -/
def eaAbsoluteY (pc0 op16 : Word) (s : State) : Except Fault Word :=
  (operandWord pc0 op16).map (· + zext16 s.y)

/-- Indirect: a word read at the operand, without the page quirk (R99, D6). -/
def eaIndirect (pc0 op16 : Word) (s : State) : Except Fault Word :=
  (operandWord pc0 op16).bind (readWord s)

/-- The address the high byte of a zero-page pointer at `p` is read from: inside page zero where
`ZP_POINTER_WRAP` is true (R100, D5). -/
def zpPointerHigh (cfg : Config) (p : Byte) : Word :=
  if cfg.zpPointerWrap then zext16 (p + 1) else zext16 p + 1

/-- The pointer stored in page zero at `p`. -/
def zpPointer (cfg : Config) (p : Byte) (s : State) : Word :=
  wordOf (readByte s (zpPointerHigh cfg p)) (readByte s (zext16 p))

/-- IndirectX: the pointer address wraps mod 256 (R100). -/
def eaIndirectX (cfg : Config) (op8 : Byte) (s : State) : Word := zpPointer cfg (op8 + s.x) s

/-- IndirectY: the base from the pointer, then Y added mod 65536 (R101). -/
def eaIndirectY (cfg : Config) (op8 : Byte) (s : State) : Word := zpPointer cfg op8 s + zext16 s.y

/-- `Resolve(mode, pc0)` of R91, reading the operand bytes from memory at `pc0 + 1` and `pc0 + 2`. The word read
of a 16-bit operand is checked by the mode's formula before its value is used. -/
def resolve (cfg : Config) (mode : Mode) (pc0 : Word) (s : State) : Except Fault EA :=
  let op8 := readByte s (pc0 + 1)
  let op16 := wordOf (readByte s (pc0 + 2)) (readByte s (pc0 + 1))
  match mode with
  | .implicit => .ok .none
  | .immediate => .ok (.addr (eaImmediate pc0))
  | .zeroPage => .ok (.addr (eaZeroPage op8))
  | .zeroPageX => .ok (.addr (eaZeroPageX op8 s))
  | .zeroPageY => .ok (.addr (eaZeroPageY op8 s))
  | .absolute => (eaAbsolute pc0 op16).map .addr
  | .absoluteX => (eaAbsoluteX pc0 op16 s).map .addr
  | .absoluteY => (eaAbsoluteY pc0 op16 s).map .addr
  | .indirect => (eaIndirect pc0 op16 s).map .addr
  | .indirectX => .ok (.addr (eaIndirectX cfg op8 s))
  | .indirectY => .ok (.addr (eaIndirectY cfg op8 s))

end Sys2Proof.Machine
end

