-- ==== Sys2Proof/Machine/Jump.lean ====
section
/-! DEFINITION. The jump family (spec/44_jump.md). -/

namespace Sys2Proof.Machine

/-- JMP abs (R119): `PC <- EA`, the catalog's only control transfer, so `PC` is not advanced afterwards, not even
for a jump to its own address (the class test of spec/90_conflicts.md C3, log entry 7). -/
def execJmpAbs (w : Word) (s : State) : Host.Outcome State Fault Refusal :=
  match eaAbsolute s.pc w with
  | .error r => raise r s
  | .ok target => .next (setEngine .running (setPC target s))

end Sys2Proof.Machine
end

