-- ==== Sys2Proof/Machine/Load.lean ====
section
/-! DEFINITION. The load family: one handler, eight addressing modes (spec/43_load.md). -/

namespace Sys2Proof.Machine

/-- `Handler[LDA]` once the byte is read: `A <- v`, then Z and N from it (R110). -/
def loadAccumulator (v : Byte) (s : State) : State := setNegativeFlag v (setZeroFlag v (setA v s))

/-- A load of `length` bytes of code from a resolved address, or the fault of its operand word read (R110, R114). -/
def loadFrom (length : Nat) (ea : Except Fault Word) (s : State) : Host.Outcome State Fault Refusal :=
  match ea with
  | .error r => raise r s
  | .ok a => .next (finish length (loadAccumulator (readByte s a) s))

/-- LDA #imm (R111): the handler reads the operand byte through its own address, so `A <- ii` (log entry 11). -/
def execLdaImm (v : Byte) (s : State) : Host.Outcome State Fault Refusal :=
  .next (finish 2 (loadAccumulator v s))

/-- LDA zp (R112). -/
def execLdaZp (o : Byte) (s : State) : Host.Outcome State Fault Refusal := loadFrom 2 (.ok (eaZeroPage o)) s

/-- LDA zp,X (R113). -/
def execLdaZpX (o : Byte) (s : State) : Host.Outcome State Fault Refusal := loadFrom 2 (.ok (eaZeroPageX o s)) s

/-- LDA abs (R114). -/
def execLdaAbs (w : Word) (s : State) : Host.Outcome State Fault Refusal := loadFrom 3 (eaAbsolute s.pc w) s

/-- LDA abs,X (R115). -/
def execLdaAbsX (w : Word) (s : State) : Host.Outcome State Fault Refusal := loadFrom 3 (eaAbsoluteX s.pc w s) s

/-- LDA abs,Y (R116). -/
def execLdaAbsY (w : Word) (s : State) : Host.Outcome State Fault Refusal := loadFrom 3 (eaAbsoluteY s.pc w s) s

/-- LDA (zp,X) (R117). -/
def execLdaIndX (o : Byte) (s : State) : Host.Outcome State Fault Refusal :=
  loadFrom 2 (.ok (eaIndirectX Config.ofSpec o s)) s

/-- LDA (zp),Y (R118). -/
def execLdaIndY (o : Byte) (s : State) : Host.Outcome State Fault Refusal :=
  loadFrom 2 (.ok (eaIndirectY Config.ofSpec o s)) s

end Sys2Proof.Machine
end

