-- ==== Sys2Proof/Machine/Register.lean ====
section
/-! DEFINITION. The register family (spec/45_register.md). -/

namespace Sys2Proof.Machine

/-- `X <- v`, then Z and N from X: the part INX and TAX share. -/
def loadX (v : Byte) (s : State) : State := setNegativeFlag v (setZeroFlag v (setX v s))

/-- INX (R120): X plus 1 with 8-bit wraparound, no carry. -/
def execInx (s : State) : Host.Outcome State Fault Refusal := .next (finish 1 (loadX (s.x + 1) s))

/-- TAX (R121). -/
def execTax (s : State) : Host.Outcome State Fault Refusal := .next (finish 1 (loadX s.a s))

end Sys2Proof.Machine
end

