-- ==== Sys2Proof/Machine/Dispatch.lean ====
section
/-! DEFINITION. The meaning of each instruction, by name (spec/40_execution_cycle.md R81). -/

namespace Sys2Proof.Machine

def exec (i : Instr) (s : State) : Host.Outcome State Fault Refusal :=
  match i with
  | .brk => Sys2Proof.Machine.execBrk s
  | .ldaImm v => Sys2Proof.Machine.execLdaImm v s
  | .ldaZp o => Sys2Proof.Machine.execLdaZp o s
  | .ldaZpX o => Sys2Proof.Machine.execLdaZpX o s
  | .ldaAbs w => Sys2Proof.Machine.execLdaAbs w s
  | .ldaAbsX w => Sys2Proof.Machine.execLdaAbsX w s
  | .ldaAbsY w => Sys2Proof.Machine.execLdaAbsY w s
  | .ldaIndX o => Sys2Proof.Machine.execLdaIndX o s
  | .ldaIndY o => Sys2Proof.Machine.execLdaIndY o s
  | .jmpAbs w => Sys2Proof.Machine.execJmpAbs w s
  | .inx => Sys2Proof.Machine.execInx s
  | .tax => Sys2Proof.Machine.execTax s

end Sys2Proof.Machine
end

