-- ==== Sys2Proof/Machine/Step.lean ====
section
/-! DEFINITION. One step of the engine (spec/40_execution_cycle.md R76, R77). -/

namespace Sys2Proof.Machine

/-- One step. From Halted no instruction executes and nothing changes; from Faulted(r) no step exists and the host
gets `r` again (R77). Otherwise the checks come in the order of spec/60_exceptions.md R129 and the decoded
instruction runs. The signal of a step is read from the new control state (`signalOf` of HostOps.lean). -/
def step (s : State) : Host.Outcome State Fault Refusal :=
  match s.engine with
  | .halted => .next s
  | .faulted r => .fault r
  | .idle | .running =>
    if s.unwritten then raise .readBeforeReset s
    else
      match fetchInstr s with
      | none => raise (.unknownOpcode (readByte s s.pc) s.pc) s
      | some i => exec i s

/-- `s` with an instruction's table word stored where the next step fetches, in a control state from which that
step exists, after a reset (log entry 15: this stands for the host's loading of a program). -/
def State.withFetchWord (s : State) (nbits w : Nat) : State :=
  { placeBytes (tableBytes nbits w) s with engine := s.engine.ready, unwritten := false }

end Sys2Proof.Machine
end

