-- ==== Sys2Proof/Machine/Cycle.lean ====
section
/-! DEFINITION. The step as spec/40_execution_cycle.md R76 writes it: catalog, resolver, handler, PC advance, with
the operands read from memory by the resolver. It is the spec's own text beside `step`, which decodes a whole
instruction first; an obligation says the two are one function. -/

namespace Sys2Proof.Machine

/-- `Handler[mnemonic](EA)` (R62, R81): the effect of an operation, without the PC advance and the control state.
A handler that needs an address refuses the sentinel (spec/41_address_resolver.md R104). -/
def handler (m : Mnemonic) (ea : EA) (s : State) : Except Refusal State :=
  match m, ea with
  | .brk, _ => .ok s
  | .lda, .addr a => .ok (loadAccumulator (readByte s a) s)
  | .lda, .none => .error .sentinelRead
  | .jmp, .addr a => .ok (setPC a s)
  | .jmp, .none => .error .sentinelRead
  | .inx, _ => .ok (loadX (s.x + 1) s)
  | .tax, _ => .ok (loadX s.a s)

/-- The class test of the PC advance: jump-absolute is the only control transfer (R82, spec/90_conflicts.md C3). -/
def Mnemonic.isControlTransfer : Mnemonic → Bool
  | .jmp => true
  | .brk | .lda | .inx | .tax => false

/-- The control state an operation leaves: Halted after break, Running after every other (R84, R85). -/
def Mnemonic.engineAfter : Mnemonic → Engine
  | .brk => .halted
  | .lda | .jmp | .inx | .tax => .running

/-- R76 after the lookup has found the descriptor `d` at `pc0`. -/
def cycleWith (cfg : Config) (d : Descriptor) (pc0 : Word) (s : State) : Host.Outcome State Fault Refusal :=
  match resolve cfg d.mode pc0 s with
  | .error r => raise r s
  | .ok ea =>
    match handler d.mnemonic ea s with
    | .error q => .refused q
    | .ok t =>
      let u := if Mnemonic.isControlTransfer d.mnemonic then t else setPC (pc0 + BitVec.ofNat 16 d.length) t
      .next (setEngine (Mnemonic.engineAfter d.mnemonic) u)

/-- `step()` of R76, under the table of R77. -/
def cycle (cfg : Config) (s : State) : Host.Outcome State Fault Refusal :=
  match s.engine with
  | .halted => .next s
  | .faulted r => .fault r
  | .idle | .running =>
    if s.unwritten then raise .readBeforeReset s
    else
      match lookup (readByte s s.pc) with
      | none => raise (.unknownOpcode (readByte s s.pc) s.pc) s
      | some d => cycleWith cfg d s.pc s

end Sys2Proof.Machine
end

