-- ==== Sys2Proof/Machine/HostOps.lean ====
section
/-! DEFINITION. The host operations, the block's only interface (spec/00_scope.md R7): the memory accessors
(spec/20_memory.md R38 to R42), reset, load, run and interpret (spec/40_execution_cycle.md R86,
spec/70_reset_and_hazards.md R141 to R148), and construction. Each answers a reply and the state it leaves. -/

namespace Sys2Proof.Machine

/-- The failures that reject a host operation (spec/60_exceptions.md R127). -/
inductive Failure where
  /-- `read16` and `write16` at 0xFFFF (spec/20_memory.md R40, R41). -/
  | wordAccessAtTop (a : Word)
  /-- `write_range` past the end of memory (R42). -/
  | rangeOutOfBounds (start : Word) (n : Nat)
  /-- `load` of more than 32768 bytes (spec/70_reset_and_hazards.md R143). -/
  | programTooLarge (n : Nat)
deriving DecidableEq, Repr

/-- What a host operation returns. -/
inductive Reply where
  /-- It returns nothing and has done its work. -/
  | done
  /-- The byte a `read` returns. -/
  | byte (v : Byte)
  /-- The word a `read16` returns. -/
  | word (v : Word)
  /-- `signal continue` (spec/00_scope.md R12). -/
  | continues
  /-- `signal halt`. -/
  | halts
  /-- The fault reason. -/
  | faults (r : Fault)
  /-- `fail(r)`: rejected, nothing changed. -/
  | fails (f : Failure)
  /-- The refusal of a step (no step of this model refuses). -/
  | refuses (q : Refusal)
  /-- The runner's own bound is used up (spec/40_execution_cycle.md R87; log entry 14). -/
  | outOfFuel
deriving DecidableEq, Repr

/-- A freshly constructed engine: memory all 0x00, engine Idle, registers and flags as `POWER_ON_STATE` says
(spec/70_reset_and_hazards.md R147, R148). Where they are unwritten their fields hold 0 and nothing observes them
(log entry 2). -/
def construct (cfg : Config) : State where
  a := 0
  x := 0
  y := 0
  pc := 0
  c := false
  z := false
  i := false
  d := false
  b := false
  v := false
  n := false
  mem := []
  engine := .idle
  unwritten := decide (cfg.powerOnState = .unwritten)

/-- The registers and flags as a host reads them. -/
structure Registers where
  a : Byte
  x : Byte
  y : Byte
  pc : Word
  c : Bool
  z : Bool
  i : Bool
  d : Bool
  b : Bool
  v : Bool
  n : Bool
deriving DecidableEq, Repr

/-- A host read of the registers and flags between steps (spec/10_state.md R37): no value before the first reset
where they are unwritten (spec/70_reset_and_hazards.md R148). -/
def hostRegisters (s : State) : Option Registers :=
  if s.unwritten then none
  else some ⟨s.a, s.x, s.y, s.pc, s.c, s.z, s.i, s.d, s.b, s.v, s.n⟩

/-- `read(addr)` (spec/20_memory.md R38). -/
def hostRead (addr : Word) (s : State) : Reply × State := (.byte (readByte s addr), s)

/-- `write(addr, val)` (R39): every address, the program-ROM region among them (R44). -/
def hostWrite (addr : Word) (val : Byte) (s : State) : Reply × State := (.done, writeByte addr val s)

/-- `read16(addr)` (R40). -/
def hostRead16 (addr : Word) (s : State) : Reply × State :=
  if addr = topAddress then (.fails (.wordAccessAtTop addr), s)
  else (.word (wordOf (readByte s (addr + 1)) (readByte s addr)), s)

/-- The two byte writes of `MemWrite(a, 2, v)`, low byte first. -/
def writeWord (a v : Word) (s : State) : State := writeByte (a + 1) (highByte v) (writeByte a (lowByte v) s)

/-- `write16(addr, val)` (R41): on failure neither byte is written. -/
def hostWrite16 (addr val : Word) (s : State) : Reply × State :=
  if addr = topAddress then (.fails (.wordAccessAtTop addr), s) else (.done, writeWord addr val s)

/-- `write_range(start, bytes)` (R42): `start + n` is computed without wrap-around, and on failure no byte is
written. -/
def hostWriteRange (start : Word) (bytes : List Byte) (s : State) : Reply × State :=
  if start.toNat + bytes.length > 65536 then (.fails (.rangeOutOfBounds start bytes.length), s)
  else (.done, { s with mem := s.mem.writeList start.toNat bytes })

/-- The reset vector (spec/20_memory.md R45). -/
def resetVector : Word := 0xFFFC

/-- The address `load` places a program's first byte at (spec/70_reset_and_hazards.md R143, D11: log entry 8). -/
def loadBase : Word := 0x8000

/-- The capacity of the program-ROM region in bytes (spec/20_memory.md R44). -/
def romCapacity : Nat := 32768

/-- `reset()` (spec/70_reset_and_hazards.md R141, R142): it leaves Faulted(r) alone, and memory always. -/
def hostReset (s : State) : Reply × State :=
  match s.engine with
  | .faulted r => (.faults r, s)
  | .idle | .running | .halted =>
    (.done, { clearFlags s with
      a := 0
      x := 0
      y := 0
      pc := wordOf (readByte s (resetVector + 1)) (readByte s resetVector)
      engine := .idle
      unwritten := false })

/-- `load(program)` (spec/70_reset_and_hazards.md R143 to R145): the program first, the reset vector second. -/
def hostLoad (program : List Byte) (s : State) : Reply × State :=
  match s.engine with
  | .faulted r => (.faults r, s)
  | .idle | .running | .halted =>
    if program.length > romCapacity then (.fails (.programTooLarge program.length), s)
    else (.done, writeWord resetVector loadBase { s with mem := s.mem.writeList loadBase.toNat program })

/-- The signal of a step that leaves the control state `e` (spec/40_execution_cycle.md R76). No step leaves Idle. -/
def signalOf : Engine → Reply
  | .idle | .running => .continues
  | .halted => .halts
  | .faulted r => .faults r

/-- `step()` as the host calls it: the signal, or the fault (R76, R77). -/
def hostStep (s : State) : Reply × State :=
  match step s with
  | .next t => (signalOf t.engine, t)
  | .fault r => (.faults r, s)
  | .refused q => (.refuses q, s)

/-- `run()` of at most `fuel` steps (R86, R87). -/
def hostRun : Nat → State → Reply × State
  | 0, s => (.outOfFuel, s)
  | fuel + 1, s =>
    match hostStep s with
    | (.continues, t) => hostRun fuel t
    | p => p

/-- `interpret(program)` (spec/70_reset_and_hazards.md R146): load, reset, run, stopping at the first failure. -/
def hostInterpret (fuel : Nat) (program : List Byte) (s : State) : Reply × State :=
  match hostLoad program s with
  | (.done, t) => hostRun fuel (hostReset t).2
  | p => p

/-- The host operations (spec/00_scope.md R7). `run` and `interpret` carry the caller's own bound (R87). -/
inductive HostOp where
  | read (addr : Word)
  | write (addr : Word) (val : Byte)
  | read16 (addr : Word)
  | write16 (addr val : Word)
  | writeRange (start : Word) (bytes : List Byte)
  | load (program : List Byte)
  | reset
  | step
  | run (fuel : Nat)
  | interpret (fuel : Nat) (program : List Byte)
deriving DecidableEq, Repr

/-- One host operation applied between steps (R7, D15). -/
def applyHostOp (op : HostOp) (s : State) : Reply × State :=
  match op with
  | .read addr => hostRead addr s
  | .write addr val => hostWrite addr val s
  | .read16 addr => hostRead16 addr s
  | .write16 addr val => hostWrite16 addr val s
  | .writeRange start bytes => hostWriteRange start bytes s
  | .load program => hostLoad program s
  | .reset => hostReset s
  | .step => hostStep s
  | .run fuel => hostRun fuel s
  | .interpret fuel program => hostInterpret fuel program s

/-- Several engines (spec/60_exceptions.md R138): `k` independent copies of one engine. The host operation goes to
the engine at place `k`; it answers no reply where there is none. -/
def applyToEngine (k : Nat) (op : HostOp) (engines : List State) : Option Reply × List State :=
  match engines[k]? with
  | none => (none, engines)
  | some s => (some (applyHostOp op s).1, engines.set k (applyHostOp op s).2)

end Sys2Proof.Machine
end

