-- ==== Sys2Proof/Safety.lean ====
section
/-! DEFINITION. What counts as a state that can execute, a state that runs reach, and the invariants the claims are
about. -/

namespace Sys2Proof.Machine

/-- A step executes an instruction from this state: the engine is Idle or Running and a reset has happened
(spec/40_execution_cycle.md R76, R77). -/
abbrev State.Executable (s : State) : Prop :=
  (s.engine = .idle ∨ s.engine = .running) ∧ s.unwritten = false

/-- A run ends well: the only final state (spec/70_reset_and_hazards.md R160). -/
abbrev State.Final (s : State) : Prop := s.engine = .halted

/-- The control state agrees with the rest of the state: an engine that has executed has been reset
(spec/60_exceptions.md R126), and a recorded fault reason is one its fault can record (R123 to R126, R130). -/
def State.engineConsistent (s : State) : Bool :=
  match s.engine with
  | .idle => true
  | .running | .halted => !s.unwritten
  | .faulted .readBeforeReset => s.unwritten
  | .faulted (.unknownOpcode op pc0) => !s.unwritten && pc0 == s.pc && (lookup op).isNone
  | .faulted (.wordAccessAtTop a) => !s.unwritten && a == 0xFFFF#16 && s.pc == 0xFFFE#16

/-- The fault recorded in a faulted state is about the byte that memory still holds at `PC`, because the faulting
step changed nothing (spec/60_exceptions.md R130): the unmapped byte itself, or one of the four opcodes with a
16-bit operand (R123). -/
def State.faultExplained (s : State) : Bool :=
  match s.engine with
  | .faulted (.unknownOpcode op _) => op == readByte s s.pc
  | .faulted (.wordAccessAtTop _) => [0xAD#8, 0xBD#8, 0xB9#8, 0x4C#8].contains (readByte s s.pc)
  | .idle | .running | .halted | .faulted .readBeforeReset => true

/-- Memory is canonical and the control state is consistent: what every host operation keeps. -/
abbrev State.Inv (s : State) : Prop := s.mem.wf = true ∧ s.engineConsistent = true

/-- What holds from a reset on (spec/10_state.md R20, R26; spec/43_load.md R110): Y and the flags no instruction
writes are 0, and Z and N are not both 1. -/
abbrev State.AfterReset (s : State) : Prop :=
  s.unwritten = false ∧ s.y = 0 ∧ s.c = false ∧ s.i = false ∧ s.d = false ∧ s.b = false ∧ s.v = false ∧
    (s.z && s.n) = false

/-- `Reaches s t`: some number of host operations leads from `s` to `t`. -/
inductive Reaches : State → State → Prop where
  | refl (s : State) : Reaches s s
  | op {s t : State} (o : HostOp) (h : Reaches s t) : Reaches s (applyHostOp o t).2

end Sys2Proof.Machine
end

