-- ==== Sys2Proof/Certificates/Slice0/Obligations.lean ====
section
/-! DEFINITION. The statements for the provers. Addresses, sums and values are written in natural-number arithmetic
with the wraps of the spec's own formulas, so that a statement does not repeat the model's definition. Where a
statement rests on a decision the spec marks as its own (a D or G number) or on a log entry, its docstring names
it. Three choices stand behind many statements at once: a raised fault is a next state whose engine is Faulted (D8;
log entry 1), operand addresses and the PC advance wrap modulo 65536 (D7; log entry 22), and an engine that has
executed from Idle is Running (D9; log entry 9). Several statements need `s.mem.wf = true`, the canonical form of
memory: it is part of the invariant `State.Inv`, which `EveryHostOperationKeepsTheInvariant` states of every
operation. -/

open Sys2Proof Sys2Proof.Machine

namespace Sys2Proof.Claims

/-- The byte at an address counted modulo 65536 (D7; log entry 22). -/
def byteAt (s : State) (address : Nat) : Byte := s.mem.read (address % 65536)

/-- The little-endian word in the bytes at `address` and the one above it, modulo 65536. -/
def wordAt (s : State) (address : Nat) : Nat := (byteAt s (address + 1)).toNat * 256 + (byteAt s address).toNat

/-- The state after a load of the byte `w` by an instruction of `length` bytes: A, Z, N, PC and the control state
are written, everything else is as in `s`. The PC wraps modulo 65536 (D7; log entry 22) and the engine is Running,
from Idle too (D9; log entry 9). -/
def loadedA (w : Byte) (length : Nat) (s : State) : State :=
  { s with
    a := w
    z := decide (w.toNat = 0)
    n := decide (128 ≤ w.toNat)
    pc := BitVec.ofNat 16 (s.pc.toNat + length)
    engine := .running }

/-- The state after a one-byte instruction that writes `w` to X: X, Z, N, PC and the control state are written,
everything else is as in `s`, with the choices of `loadedA`. -/
def loadedX (w : Byte) (s : State) : State :=
  { s with
    x := w
    z := decide (w.toNat = 0)
    n := decide (128 ≤ w.toNat)
    pc := BitVec.ofNat 16 (s.pc.toNat + 1)
    engine := .running }

/-- The faulted state: only the control state is written (D8; log entry 1). -/
def faultedWith (r : Fault) (s : State) : State := { s with engine := .faulted r }

/-- The twelve mapped opcode bytes (spec/30_encoding.md R69). -/
def mappedOpcodes : List Byte :=
  [0x00, 0x4C, 0xA1, 0xA5, 0xA9, 0xAA, 0xAD, 0xB1, 0xB5, 0xB9, 0xBD, 0xE8]

/-- The four opcode bytes with a 16-bit operand (spec/30_encoding.md R63). -/
def wordOperandOpcodes : List Byte := [0xAD, 0xBD, 0xB9, 0x4C]

/-- `s` with its seven flags replaced. -/
def withFlags (c z i d b v n : Bool) (s : State) : State :=
  { s with c := c, z := z, i := i, d := d, b := b, v := v, n := n }

/-- A byte sequence written by the host, one `write` for each byte, from an address upward modulo 65536. -/
def hostWrites : Nat → List Byte → State → State
  | _, [], s => s
  | address, w :: ws, s => hostWrites (address + 1) ws (hostWrite (BitVec.ofNat 16 address) w s).2

end Sys2Proof.Claims

open Sys2Proof.Claims

/-! ### Encoding -/

/-- Decoding the bytes of an instruction, whatever follows them, gives the instruction back with every operand at
every value (spec/30_encoding.md R58, R63, R67, R71). -/
def Obligations.DecodeOfEncodeGivesTheInstruction : Prop :=
  ∀ (i : Instr) (rest : List Byte), i.wf = true ∧ decode (encode i ++ rest) = .ok (i, rest)

/-- Each byte sequence has one meaning: what decodes to an instruction is that instruction's bytes
(spec/30_encoding.md R61, R65). -/
def Obligations.DecodedBytesAreTheInstructionsEncoding : Prop :=
  ∀ (bytes rest : List Byte) (i : Instr), decode bytes = .ok (i, rest) → bytes = encode i ++ rest

/-- The mapped bytes are exactly the twelve of spec/30_encoding.md R69, and the decoder rejects every other one by
name, whatever follows it. Nine of the twelve bytes are the spec's from general knowledge (G2, D2; log entry 4). -/
def Obligations.ExactlyTwelveOpcodeBytesAreMapped : Prop :=
  ∀ (op : Byte) (rest : List Byte),
    ((lookup op).isSome = true ↔ op ∈ mappedOpcodes) ∧
      (decode (op :: rest) = .error (.unknownOpcode op) ↔ op ∉ mappedOpcodes)

/-- Words of every family decode to the instructions they stand for: the bytes of spec/30_encoding.md R63 with the
operands of R75's examples. The source states only 00, A9 and AA; B5, BD, A1, 4C and E8 are the spec's choice from
general knowledge (D2, G2; log entry 4). -/
def Obligations.WordsOfTheSpecDecode : Prop :=
  decode [0x00] = .ok (.brk, []) ∧
    decode [0xA9, 0x0F] = .ok (.ldaImm 0x0F, []) ∧
    decode [0xB5, 0x10] = .ok (.ldaZpX 0x10, []) ∧
    decode [0xBD, 0x34, 0x12] = .ok (.ldaAbsX 0x1234, []) ∧
    decode [0xA1, 0x10] = .ok (.ldaIndX 0x10, []) ∧
    decode [0x4C, 0x00, 0x80] = .ok (.jmpAbs 0x8000, []) ∧
    decode [0xE8] = .ok (.inx, []) ∧
    decode [0xAA] = .ok (.tax, [])

/-- The row of an instruction's opcode byte has its operation and mode, and its length is 1 plus the operand bytes
of the mode and the number of bytes the encoder writes (spec/30_encoding.md R60, R64, R65). The lengths are the
spec's decision D3 (log entry 5). -/
def Obligations.CatalogRowDescribesTheInstruction : Prop :=
  ∀ i : Instr, ∃ d, lookup i.opcode = some d ∧ d.mnemonic = i.mnemonic ∧ d.mode = i.mode ∧
    d.length = 1 + i.mode.format.operandBytes ∧ d.length = (encode i).length

/-! ### The step -/

/-- When the three bytes at PC (counted modulo 65536) decode to `i`, a step from an executable state is `exec i`:
nothing is added around it (spec/40_execution_cycle.md R76, R78). The wrap of the operand addresses is D7 (log
entry 22), and that the step decodes a whole instruction first is deduced (log entry 11). -/
def Obligations.StepRunsTheDecodedInstruction : Prop :=
  ∀ (s : State) (i : Instr) (rest : List Byte), s.Executable →
    decode [byteAt s s.pc.toNat, byteAt s (s.pc.toNat + 1), byteAt s (s.pc.toNat + 2)] = .ok (i, rest) →
    step s = exec i s

/-- The step, which decodes a whole instruction and runs its meaning, is the spec's own cycle: catalog lookup,
Resolve reading the operands from memory, the handler of the mnemonic, the PC advance by the row's length, the
control state (spec/40_execution_cycle.md R76 to R85). Deduced for a step that decodes a whole instruction first
(D26; log entry 11). The cycle on the other side rests on choices the spec marks as its own: what a raised fault
leaves (D8; log entry 1), ReadBeforeReset (D10; log entry 2), `ZP_POINTER_WRAP` (D5, OPEN-2; log entry 3), the
rows' bytes (D2; log entry 4), lengths and the break's advance (D3, D20; log entry 5), the word-access fault (D4; log
entry 6), the class test (C3; log entry 7), the rows of R77 for Idle, Halted and Faulted (D9; log entry 9) and the
wraps (D7; log entry 22). -/
def Obligations.StepIsTheFetchResolveExecuteCycle : Prop :=
  ∀ s : State, step s = cycle Config.ofSpec s

/-- An unmapped opcode byte faults: the reason records the byte and its address, and nothing but the control state
changes, so PC stays at the byte; the bytes after it do not matter (spec/60_exceptions.md R122, R124). Which bytes
are mapped is D2 (log entry 4). That the fault is a next state whose engine is Faulted, with the reason reported to
the host, is D8 and the model's own choice (log entry 1). -/
def Obligations.UnmappedOpcodeFaults : Prop :=
  ∀ s : State, s.Executable → byteAt s s.pc.toNat ∉ mappedOpcodes →
    step s = .next (faultedWith (.unknownOpcode (byteAt s s.pc.toNat) s.pc) s) ∧
      (hostStep s).1 = .faults (.unknownOpcode (byteAt s s.pc.toNat) s.pc)

/-- Where a step exists and where it leads: from Idle and Running to Running, Halted or Faulted; from Halted and
Faulted no step exists, the host gets the halt or the fault again and nothing changes. The Idle, Halted and Faulted
rows of spec/40_execution_cycle.md R77 are the spec's decision D9 (log entry 9); that the step answers `fault` from
Faulted and a Faulted next state where it raises one is D8 and the model's own choice (log entry 1). -/
def Obligations.StepTransitionsOfTheEngine : Prop :=
  ∀ s : State,
    ((s.engine = .idle ∨ s.engine = .running) →
      ∃ t, step s = .next t ∧ (t.engine = .running ∨ t.engine = .halted ∨ ∃ r, t.engine = .faulted r)) ∧
    (s.engine = .halted → step s = .next s ∧ hostStep s = (.halts, s)) ∧
    (∀ r, s.engine = .faulted r → step s = .fault r ∧ hostStep s = (.faults r, s))

/-- A step before the first reset faults with ReadBeforeReset and changes nothing but the control state; once a
reset has happened no step raises that fault. A decision of the spec (spec/60_exceptions.md R126, D10; log
entry 2), with the fault as a next state (D8; log entry 1). -/
def Obligations.OnlyAStepBeforeResetFaultsReadBeforeReset : Prop :=
  ∀ s : State, (s.engine = .idle ∨ s.engine = .running) →
    (s.unwritten = true → step s = .next (faultedWith .readBeforeReset s)) ∧
    (s.unwritten = false → ∀ t, step s = .next t → t.engine ≠ .faulted .readBeforeReset)

/-- The order of a step's checks (spec/60_exceptions.md R129): the unwritten PC, the lookup, the operand word, and
inside the resolver the operand word before the Indirect pointer. The clauses exclude one another. The second half
is inferred by the spec from R76. The faults are D8, D10 and D4 (log entries 1, 2 and 6), the mapped bytes D2 (log
entry 4). -/
def Obligations.FaultChecksComeInOrder : Prop :=
  (∀ s : State, (s.engine = .idle ∨ s.engine = .running) →
    (s.unwritten = true → step s = .next (faultedWith .readBeforeReset s)) ∧
    (s.unwritten = false → byteAt s s.pc.toNat ∉ mappedOpcodes →
      step s = .next (faultedWith (.unknownOpcode (byteAt s s.pc.toNat) s.pc) s)) ∧
    (s.unwritten = false → byteAt s s.pc.toNat ∈ wordOperandOpcodes → s.pc = 0xFFFE#16 →
      step s = .next (faultedWith (.wordAccessAtTop 0xFFFF) s))) ∧
  (∀ (cfg : Config) (s : State) (pc0 : Word),
    (pc0 = 0xFFFE#16 → resolve cfg .indirect pc0 s = .error (.wordAccessAtTop 0xFFFF)) ∧
    (pc0 ≠ 0xFFFE#16 → wordAt s (pc0.toNat + 1) = 65535 →
      resolve cfg .indirect pc0 s = .error (.wordAccessAtTop 0xFFFF)))

/-- Faults are precise: the step that faults answers the faulted state, in which only the control state has
changed, and the host gets the reason (spec/40_execution_cycle.md R89, spec/60_exceptions.md R122, R130). That a fault
sets the engine to Faulted, changes nothing else and is returned to the host is D8 (log entry 1); the host's reply is
read from the new control state (log entry 21). -/
def Obligations.FaultingStepChangesOnlyTheEngine : Prop :=
  ∀ (s t : State) (r : Fault), step s = .next t → t.engine = .faulted r →
    t = faultedWith r s ∧ hostStep s = (.faults r, t)

/-- A step raises only the three reasons of spec/60_exceptions.md R123, each with the values R124 to R126 record
and exactly where they say. The reasons and the faulted next state are D8, D10 and D4 (log entries 1, 2 and 6), the
mapped bytes D2 (log entry 4). -/
def Obligations.FaultReasonsOfAStepAreExactlyTheList : Prop :=
  ∀ (s t : State) (r : Fault), step s = .next t →
    (t.engine = .faulted r ↔
      (s.engine = .idle ∨ s.engine = .running) ∧
        ((s.unwritten = true ∧ r = .readBeforeReset) ∨
          (s.unwritten = false ∧ byteAt s s.pc.toNat ∉ mappedOpcodes ∧
            r = .unknownOpcode (byteAt s s.pc.toNat) s.pc) ∨
          (s.unwritten = false ∧ byteAt s s.pc.toNat ∈ wordOperandOpcodes ∧ s.pc = 0xFFFE#16 ∧
            r = .wordAccessAtTop 0xFFFF)))

/-- There is no stuck state and no refusal: a step answers a next state, or the engine is Faulted and the step
answers its reason. From Idle and Running a step always exists (spec/00_scope.md R14, spec/40_execution_cycle.md
R77). From Halted and Faulted the spec has no step: that the model's step answers the same state from Halted is log
entry 9 (D9), and that it answers the reason from Faulted is log entry 1 (D8 and the model's own choice). -/
def Obligations.NoStateIsStuck : Prop :=
  ∀ s : State, (∃ t, step s = .next t) ∨ ∃ r, s.engine = .faulted r ∧ step s = .fault r

/-- The PC advance of spec/40_execution_cycle.md R82 and R83: PC plus the row's length modulo 65536 for every row
but the jump's; a jump leaves PC at its operand, at its own address too (class test, C3; log entry 7). The wrap is
D7 (log entry 22); the rows' lengths and the break's advance are D3 and D20 (log entry 5). -/
def Obligations.StepAdvancesPCByTheRowsLength : Prop :=
  ∀ (s t : State) (d : Descriptor), s.Executable → lookup (byteAt s s.pc.toNat) = some d → step s = .next t →
    (∀ r, t.engine ≠ .faulted r) →
    (d.mnemonic ≠ .jmp → t.pc.toNat = (s.pc.toNat + d.length) % 65536) ∧
      (d.mnemonic = .jmp → t.pc.toNat = wordAt s (s.pc.toNat + 1))

/-- Break alone halts; every other instruction that does not fault leaves the engine Running, from Idle too, and
the host gets the signal (spec/40_execution_cycle.md R84, R85). That a step from Idle leads to Running is D9 (log
entry 9); the signal is read from the new control state (log entry 21). -/
def Obligations.OnlyBreakHalts : Prop :=
  ∀ (s t : State), s.Executable → step s = .next t → (∀ r, t.engine ≠ .faulted r) →
    (byteAt s s.pc.toNat = 0x00 → t.engine = .halted ∧ hostStep s = (.halts, t)) ∧
      (byteAt s s.pc.toNat ≠ 0x00 → t.engine = .running ∧ hostStep s = (.continues, t))

/-- An instruction the host writes at PC, byte by byte modulo 65536, is the one the next step runs: there is no
prefetch (spec/20_memory.md R54, D15). -/
def Obligations.HostWrittenInstructionIsFetched : Prop :=
  ∀ (i : Instr) (s : State), s.mem.wf = true → s.Executable →
    step (hostWrites s.pc.toNat (encode i) s) = exec i (hostWrites s.pc.toNat (encode i) s)

/-! ### The instructions: each result is the whole next state, so it is the frame too -/

/-- BRK (spec/42_break.md R107): opcode 0x00 of length 1; PC advances by 1 and the engine halts; no register, flag
or memory byte changes. The final PC rests on the spec's decisions D3 and D20 (log entry 5). -/
def Obligations.BreakHaltsAndAdvancesPC : Prop :=
  ∀ s : State, encode .brk = [0x00] ∧
    exec .brk s = .next { s with pc := BitVec.ofNat 16 (s.pc.toNat + 1), engine := .halted }

/-- LDA #imm (spec/43_load.md R111): A9 ii of length 2; A is the operand byte; as a step, the byte at PC plus 1
modulo 65536. The wrap of the operand's address and of PC is D7 (log entry 22); the first clause takes the operand byte
from the decoder, which is deduced (log entry 11). -/
def Obligations.LoadImmediate : Prop :=
  (∀ (w : Byte) (s : State), encode (.ldaImm w) = [0xA9, w] ∧ exec (.ldaImm w) s = .next (loadedA w 2 s)) ∧
  (∀ s : State, s.Executable → byteAt s s.pc.toNat = 0xA9 →
    step s = .next (loadedA (byteAt s (s.pc.toNat + 1)) 2 s))

/-- LDA zp (spec/43_load.md R112): A5 zz; A is `Mem[zz]`. The opcode byte is the spec's from general knowledge (G2;
log entry 4). -/
def Obligations.LoadZeroPage : Prop :=
  ∀ (o : Byte) (s : State), encode (.ldaZp o) = [0xA5, o] ∧
    exec (.ldaZp o) s = .next (loadedA (s.mem.read o.toNat) 2 s)

/-- LDA zp,X (spec/43_load.md R113): B5 zz; the sum wraps inside page zero (G2; log entry 4). -/
def Obligations.LoadZeroPageX : Prop :=
  ∀ (o : Byte) (s : State), encode (.ldaZpX o) = [0xB5, o] ∧
    exec (.ldaZpX o) s = .next (loadedA (s.mem.read ((o.toNat + s.x.toNat) % 256)) 2 s)

/-- LDA abs (spec/43_load.md R114): AD ll hh; A is the byte at the operand, and at PC 0xFFFE the operand's word
access faults and nothing else changes (G2, D4; log entries 4 and 6). -/
def Obligations.LoadAbsolute : Prop :=
  ∀ (w : Word) (s : State),
    encode (.ldaAbs w) = [0xAD, BitVec.ofNat 8 w.toNat, BitVec.ofNat 8 (w.toNat / 256)] ∧
    (s.pc ≠ 0xFFFE#16 → exec (.ldaAbs w) s = .next (loadedA (s.mem.read w.toNat) 3 s)) ∧
    (s.pc = 0xFFFE#16 → exec (.ldaAbs w) s = .next (faultedWith (.wordAccessAtTop 0xFFFF) s))

/-- LDA abs,X (spec/43_load.md R115): BD ll hh; the sum wraps modulo 65536 and a page crossing has no effect (G2,
D4; log entries 4 and 6). -/
def Obligations.LoadAbsoluteX : Prop :=
  ∀ (w : Word) (s : State),
    encode (.ldaAbsX w) = [0xBD, BitVec.ofNat 8 w.toNat, BitVec.ofNat 8 (w.toNat / 256)] ∧
    (s.pc ≠ 0xFFFE#16 →
      exec (.ldaAbsX w) s = .next (loadedA (s.mem.read ((w.toNat + s.x.toNat) % 65536)) 3 s)) ∧
    (s.pc = 0xFFFE#16 → exec (.ldaAbsX w) s = .next (faultedWith (.wordAccessAtTop 0xFFFF) s))

/-- LDA abs,Y (spec/43_load.md R116): B9 ll hh; as LDA abs,X with Y (G2, D4; log entries 4 and 6). -/
def Obligations.LoadAbsoluteY : Prop :=
  ∀ (w : Word) (s : State),
    encode (.ldaAbsY w) = [0xB9, BitVec.ofNat 8 w.toNat, BitVec.ofNat 8 (w.toNat / 256)] ∧
    (s.pc ≠ 0xFFFE#16 →
      exec (.ldaAbsY w) s = .next (loadedA (s.mem.read ((w.toNat + s.y.toNat) % 65536)) 3 s)) ∧
    (s.pc = 0xFFFE#16 → exec (.ldaAbsY w) s = .next (faultedWith (.wordAccessAtTop 0xFFFF) s))

/-- LDA (zp,X) (spec/43_load.md R117): A1 zz; the pointer at `(zz + X) mod 256`, its high byte inside page zero.
That a pointer at 0xFF takes its high byte from 0x0000 is the spec's decision D5, OPEN-2 (log entry 3); the opcode
byte is G2 (log entry 4). -/
def Obligations.LoadIndirectX : Prop :=
  ∀ (o : Byte) (s : State), encode (.ldaIndX o) = [0xA1, o] ∧
    exec (.ldaIndX o) s =
      .next (loadedA (s.mem.read
        ((s.mem.read ((o.toNat + s.x.toNat + 1) % 256)).toNat * 256 +
          (s.mem.read ((o.toNat + s.x.toNat) % 256)).toNat)) 2 s)

/-- LDA (zp),Y (spec/43_load.md R118): B1 zz; the base from the pointer at `zz`, then Y added modulo 65536. The
wrap of the pointer's high byte is the spec's decision D5, OPEN-2 (log entry 3); the opcode byte is G2 (log
entry 4). -/
def Obligations.LoadIndirectY : Prop :=
  ∀ (o : Byte) (s : State), encode (.ldaIndY o) = [0xB1, o] ∧
    exec (.ldaIndY o) s =
      .next (loadedA (s.mem.read
        (((s.mem.read ((o.toNat + 1) % 256)).toNat * 256 + (s.mem.read o.toNat).toNat + s.y.toNat) % 65536)) 2 s)

/-- JMP abs (spec/44_jump.md R119): 4C ll hh; PC is the operand, any 16-bit value, its own address among them, and
nothing else but the control state changes; at PC 0xFFFE the operand's word access faults (G2, D4; log entries 4, 6
and 7). -/
def Obligations.JumpAbsolute : Prop :=
  ∀ (w : Word) (s : State),
    encode (.jmpAbs w) = [0x4C, BitVec.ofNat 8 w.toNat, BitVec.ofNat 8 (w.toNat / 256)] ∧
    (s.pc ≠ 0xFFFE#16 → exec (.jmpAbs w) s = .next { s with pc := w, engine := .running }) ∧
    (s.pc = 0xFFFE#16 → exec (.jmpAbs w) s = .next (faultedWith (.wordAccessAtTop 0xFFFF) s))

/-- INX (spec/45_register.md R120): E8 of length 1; X plus 1 modulo 256, Z and N from the new X, C and V as before
(the opcode byte is G2; log entry 4). -/
def Obligations.IncrementX : Prop :=
  ∀ s : State, encode .inx = [0xE8] ∧
    exec .inx s = .next (loadedX (BitVec.ofNat 8 ((s.x.toNat + 1) % 256)) s)

/-- TAX (spec/45_register.md R121): AA of length 1; X is A, Z and N from it, A unchanged. The wrap of
PC is D7 (log entry 22). -/
def Obligations.TransferAToX : Prop :=
  ∀ s : State, encode .tax = [0xAA] ∧ exec .tax s = .next (loadedX s.a s)

/-- The flag helpers (spec/43_load.md R108, R109): each writes its one flag on every call, 1 or 0, and nothing
else. -/
def Obligations.FlagHelpersWriteOneFlag : Prop :=
  ∀ (w : Byte) (s : State),
    setZeroFlag w s = { s with z := decide (w.toNat = 0) } ∧
      setNegativeFlag w s = { s with n := decide (w.toNat / 128 = 1) }

/-- The status byte in the layout the spec fixes for readers (spec/10_state.md R28, general knowledge G6, D18; log
entry 13), with the reserved bit 1 (R27). -/
def Obligations.StatusByteLayout : Prop :=
  ∀ s : State, (statusByte s).toNat =
    s.n.toNat * 128 + s.v.toNat * 64 + 32 + s.b.toNat * 16 + s.d.toNat * 8 + s.i.toNat * 4 + s.z.toNat * 2 + s.c.toNat

/-! ### The address resolver -/

/-- Immediate, ZeroPage, ZeroPageX, ZeroPageY and Implicit (spec/41_address_resolver.md R92 to R95, R104): the
operand byte read at `pc0 + 1`, sums modulo 256, the sentinel for Implicit, no fault. The wrap of `pc0 + 1` is
D7 (log entry 22); the sentinel as a value of its own is D19 (log entry 12). -/
def Obligations.ResolveByteModes : Prop :=
  ∀ (cfg : Config) (pc0 : Word) (s : State),
    resolve cfg .implicit pc0 s = .ok .none ∧
    resolve cfg .immediate pc0 s = .ok (.addr (BitVec.ofNat 16 ((pc0.toNat + 1) % 65536))) ∧
    resolve cfg .zeroPage pc0 s = .ok (.addr (BitVec.ofNat 16 (byteAt s (pc0.toNat + 1)).toNat)) ∧
    resolve cfg .zeroPageX pc0 s =
      .ok (.addr (BitVec.ofNat 16 (((byteAt s (pc0.toNat + 1)).toNat + s.x.toNat) % 256))) ∧
    resolve cfg .zeroPageY pc0 s =
      .ok (.addr (BitVec.ofNat 16 (((byteAt s (pc0.toNat + 1)).toNat + s.y.toNat) % 256)))

/-- Absolute, AbsoluteX and AbsoluteY (spec/41_address_resolver.md R96 to R98): the fault when the opcode is at
0xFFFE, else the operand word, the index added modulo 65536; an opcode at 0xFFFF has its operand at 0x0000 and does
not fault. The fault is the spec's decision D4 (log entry 6). -/
def Obligations.ResolveAbsoluteModes : Prop :=
  ∀ (cfg : Config) (pc0 : Word) (s : State),
    (pc0 = 0xFFFE#16 → ∀ m ∈ [Mode.absolute, .absoluteX, .absoluteY],
      resolve cfg m pc0 s = .error (.wordAccessAtTop 0xFFFF)) ∧
    (pc0 ≠ 0xFFFE#16 →
      resolve cfg .absolute pc0 s = .ok (.addr (BitVec.ofNat 16 (wordAt s (pc0.toNat + 1)))) ∧
      resolve cfg .absoluteX pc0 s =
        .ok (.addr (BitVec.ofNat 16 ((wordAt s (pc0.toNat + 1) + s.x.toNat) % 65536))) ∧
      resolve cfg .absoluteY pc0 s =
        .ok (.addr (BitVec.ofNat 16 ((wordAt s (pc0.toNat + 1) + s.y.toNat) % 65536))))

/-- Indirect (spec/41_address_resolver.md R99, decisions D4 and D6): the word at the operand, without the page
quirk; a fault where the operand is 0xFFFF or cannot be read. -/
def Obligations.ResolveIndirect : Prop :=
  ∀ (cfg : Config) (pc0 : Word) (s : State),
    (pc0 = 0xFFFE#16 → resolve cfg .indirect pc0 s = .error (.wordAccessAtTop 0xFFFF)) ∧
    (pc0 ≠ 0xFFFE#16 → wordAt s (pc0.toNat + 1) = 65535 →
      resolve cfg .indirect pc0 s = .error (.wordAccessAtTop 0xFFFF)) ∧
    (pc0 ≠ 0xFFFE#16 → wordAt s (pc0.toNat + 1) ≠ 65535 →
      resolve cfg .indirect pc0 s = .ok (.addr (BitVec.ofNat 16 (wordAt s (wordAt s (pc0.toNat + 1))))))

/-- IndirectX and IndirectY (spec/41_address_resolver.md R100, R101) under both values of `ZP_POINTER_WRAP`
(OPEN-2, D5; log entry 3): the high byte of a pointer at `p` is at `(p + 1) mod 256`, or at `p + 1` where the
parameter is false. -/
def Obligations.ResolveZeroPagePointerModes : Prop :=
  ∀ (cfg : Config) (pc0 : Word) (s : State),
    let high := fun p : Nat => if cfg.zpPointerWrap then (p + 1) % 256 else p + 1
    let pointer := fun p : Nat => (s.mem.read (high p)).toNat * 256 + (s.mem.read p).toNat
    let operand := (byteAt s (pc0.toNat + 1)).toNat
    resolve cfg .indirectX pc0 s = .ok (.addr (BitVec.ofNat 16 (pointer ((operand + s.x.toNat) % 256)))) ∧
    resolve cfg .indirectY pc0 s = .ok (.addr (BitVec.ofNat 16 ((pointer operand + s.y.toNat) % 65536)))

/-! ### Frames and rules about the whole machine -/

/-- The register-write columns of spec/10_state.md R21 as a frame of every instruction: A is written by LDA only, X
by INX and TAX only, Z and N by those three only, Y, the other five flags and memory by none, and the control state
becomes Running, Halted or the operand's fault. Every byte of memory reads as before. -/
def Obligations.InstructionsWriteOnlyTheirRegisters : Prop :=
  ∀ (i : Instr) (s t : State), exec i s = .next t →
    (i.mnemonic ≠ .lda → t.a = s.a) ∧
    (i.mnemonic ≠ .inx → i.mnemonic ≠ .tax → t.x = s.x) ∧
    (i.mnemonic = .brk ∨ i.mnemonic = .jmp → t.z = s.z ∧ t.n = s.n) ∧
    t.y = s.y ∧ t.c = s.c ∧ t.i = s.i ∧ t.d = s.d ∧ t.b = s.b ∧ t.v = s.v ∧ t.unwritten = s.unwritten ∧
    (∀ address, t.mem.read address = s.mem.read address) ∧ t.mem = s.mem ∧
    (t.engine = .running ∨ t.engine = .halted ∨ t.engine = .faulted (.wordAccessAtTop 0xFFFF))

/-- No step writes memory, Y or one of the flags C, I, D, B, V (spec/20_memory.md R47, spec/10_state.md R20,
R26). -/
def Obligations.StepsNeverWriteMemoryYOrTheFiveFlags : Prop :=
  ∀ s t : State, step s = .next t →
    t.mem = s.mem ∧ t.y = s.y ∧ t.c = s.c ∧ t.i = s.i ∧ t.d = s.d ∧ t.b = s.b ∧ t.v = s.v

/-- Z and N change only through the two helpers on one value: after a step they are as before, or they are the
zero and negative test of the A or the X that the step left. -/
def Obligations.ZAndNFollowTheRegisterWritten : Prop :=
  ∀ s t : State, step s = .next t →
    (t.z = s.z ∧ t.n = s.n) ∨
      (t.z = decide (t.a.toNat = 0) ∧ t.n = decide (128 ≤ t.a.toNat) ∧ t.x = s.x) ∨
      (t.z = decide (t.x.toNat = 0) ∧ t.n = decide (128 ≤ t.x.toNat) ∧ t.a = s.a)

/-- Nothing reads a flag (spec/10_state.md R26, spec/60_exceptions.md R132): two states that differ only in flags
step to states that agree on A, X, Y, PC, memory and the control state. -/
def Obligations.FlagsNeverInfluenceAStep : Prop :=
  ∀ (s t : State) (c z i d b v n : Bool), step s = .next t →
    ∃ u, step (withFlags c z i d b v n s) = .next u ∧ u.a = t.a ∧ u.x = t.x ∧ u.y = t.y ∧ u.pc = t.pc ∧
      u.mem = t.mem ∧ u.engine = t.engine ∧ u.unwritten = t.unwritten ∧
      u.c = c ∧ u.i = i ∧ u.d = d ∧ u.b = b ∧ u.v = v

/-- Every step from a state with the invariant leaves it: memory stays canonical, an engine that has executed has
been reset, a recorded fault is one its reason allows, and the faulting byte still stands at PC. -/
def Obligations.EveryStepKeepsTheInvariant : Prop :=
  ∀ s t : State, s.Inv → s.faultExplained = true → step s = .next t → t.Inv ∧ t.faultExplained = true

/-- Every host operation keeps the invariant: the memory writes, load, reset, run and interpret too. -/
def Obligations.EveryHostOperationKeepsTheInvariant : Prop :=
  ∀ (op : HostOp) (s : State), s.Inv → (applyHostOp op s).2.Inv

/-- From a reset on, Y and the flags no instruction writes stay 0 and Z and N are never both 1, through every host
operation (spec/10_state.md R20, R26, spec/43_load.md R110). -/
def Obligations.WhatResetLeavesHoldsFromThenOn : Prop :=
  ∀ (op : HostOp) (s : State), s.AfterReset → (applyHostOp op s).2.AfterReset

/-- The invariants hold of the state after reset and of a constructed engine. -/
def Obligations.ResetHasTheInvariants : Prop :=
  State.reset.Inv ∧ State.reset.faultExplained = true ∧ State.reset.AfterReset ∧
    ∀ cfg : Config, (construct cfg).Inv ∧ (construct cfg).faultExplained = true

/-- Every state the host can reach from construction has the invariant, and where its registers are written Y and
the five flags are 0 and Z and N are not both 1 (spec/10_state.md R20, R26, R36). -/
def Obligations.EveryReachableStateIsConsistent : Prop :=
  ∀ (cfg : Config) (t : State), Reaches (construct cfg) t →
    t.Inv ∧ (t.unwritten = false → t.AfterReset)

/-! ### Memory accessors -/

/-- `read` and `write` (spec/20_memory.md R38, R39): both total; a read changes nothing; a write changes the byte it
names and no other state. -/
def Obligations.WriteChangesTheByteItNames : Prop :=
  ∀ (s : State) (p q : Word) (w : Byte), s.mem.wf = true →
    (hostWrite p w s).1 = .done ∧
    hostRead q (hostWrite p w s).2 = (.byte (if q = p then w else s.mem.read q.toNat), (hostWrite p w s).2) ∧
    { (hostWrite p w s).2 with mem := s.mem } = s

/-- `write16` then `read16` gives the word back at every address but 0xFFFF, little-endian byte by byte, and
changes no other byte (spec/20_memory.md R46, R48). -/
def Obligations.WordRoundTrip : Prop :=
  ∀ (s : State) (p w : Word), s.mem.wf = true → p.toNat ≤ 65534 →
    (hostWrite16 p w s).1 = .done ∧
    (hostRead16 p (hostWrite16 p w s).2).1 = .word w ∧
    (∀ q : Nat, (hostWrite16 p w s).2.mem.read q =
      if q = p.toNat then BitVec.ofNat 8 w.toNat
      else if q = p.toNat + 1 then BitVec.ofNat 8 (w.toNat / 256) else s.mem.read q) ∧
    { (hostWrite16 p w s).2 with mem := s.mem } = s

/-- `read16` and `write16` at 0xFFFF fail and change nothing; `read16` elsewhere gives the little-endian word and
changes nothing (spec/20_memory.md R40, R41). That the failing `write16` writes neither byte is the spec's decision
D12 (log entry 10). -/
def Obligations.WordAccessAtTheTopFails : Prop :=
  ∀ (s : State) (w : Word),
    hostRead16 0xFFFF#16 s = (.fails (.wordAccessAtTop 0xFFFF), s) ∧
    hostWrite16 0xFFFF#16 w s = (.fails (.wordAccessAtTop 0xFFFF), s) ∧
    (∀ p : Word, p.toNat ≤ 65534 → hostRead16 p s = (.word (BitVec.ofNat 16 (wordAt s p.toNat)), s))

/-- `write_range` (spec/20_memory.md R42): it fails exactly when the sequence passes the end of memory, and then
writes nothing (D12; log entry 10); otherwise the bytes land one after another and nothing else changes. -/
def Obligations.WriteRangeLandsOrFailsWhole : Prop :=
  ∀ (s : State) (start : Word) (bytes : List Byte), s.mem.wf = true →
    (start.toNat + bytes.length > 65536 →
      hostWriteRange start bytes s = (.fails (.rangeOutOfBounds start bytes.length), s)) ∧
    (start.toNat + bytes.length ≤ 65536 →
      (hostWriteRange start bytes s).1 = .done ∧
      (∀ q : Nat, (hostWriteRange start bytes s).2.mem.read q =
        if start.toNat ≤ q ∧ q < start.toNat + bytes.length then bytes.getD (q - start.toNat) 0
        else s.mem.read q) ∧
      { (hostWriteRange start bytes s).2 with mem := s.mem } = s)

/-! ### Construction, reset, load, run -/

/-- Fresh memory is zero, the engine is Idle, and before the first reset the registers hold no value or are all 0,
as `POWER_ON_STATE` says (spec/20_memory.md R43, spec/70_reset_and_hazards.md R147, R148; OPEN-1, D10; log
entry 2). A step then faults, or runs the break that fresh memory holds at 0x0000. -/
def Obligations.ConstructedEngine : Prop :=
  ∀ cfg : Config,
    (∀ q : Word, hostRead q (construct cfg) = (.byte 0x00, construct cfg)) ∧ (construct cfg).engine = .idle ∧
    (cfg.powerOnState = .unwritten →
      hostRegisters (construct cfg) = none ∧
      step (construct cfg) = .next (faultedWith .readBeforeReset (construct cfg))) ∧
    (cfg.powerOnState = .zero →
      hostRegisters (construct cfg) = some ⟨0, 0, 0, 0, false, false, false, false, false, false, false⟩ ∧
      step (construct cfg) = .next { construct cfg with pc := 0x0001, engine := .halted })

/-- `reset` (spec/70_reset_and_hazards.md R141, R142): A, X, Y and the seven flags 0, PC from the reset vector,
engine Idle, memory unchanged; a second reset changes nothing more; from Faulted nothing changes and the host gets
the reason. The Running, Halted and Faulted rows of R142 are the spec's decision D9 (log entry 9). -/
def Obligations.ResetLoadsTheVector : Prop :=
  ∀ s : State,
    ((∀ r, s.engine ≠ .faulted r) →
      hostReset s = (.done,
        { a := 0, x := 0, y := 0, pc := BitVec.ofNat 16 (wordAt s 65532), c := false, z := false, i := false,
          d := false, b := false, v := false, n := false, mem := s.mem, engine := .idle, unwritten := false }) ∧
      hostReset (hostReset s).2 = hostReset s) ∧
    (∀ r, s.engine = .faulted r → hostReset s = (.faults r, s))

/-- The state after reset is the reset of a constructed engine (spec/70_reset_and_hazards.md R141, R147). -/
def Obligations.StateAfterResetIsAConstructedEngineReset : Prop :=
  ∀ cfg : Config, hostReset (construct cfg) = (.done, State.reset)

/-- `load` (spec/70_reset_and_hazards.md R143 to R145, the spec's decision D11; log entry 8): too long a program
fails and changes nothing; else the program stands from 0x8000 up, the vector word 0x8000 at 0xFFFC stands over it,
and no other byte, register or control state changes; from Faulted nothing changes. -/
def Obligations.LoadPlacesProgramAndVector : Prop :=
  ∀ (s : State) (program : List Byte), s.mem.wf = true →
    ((∀ r, s.engine ≠ .faulted r) → program.length > 32768 →
      hostLoad program s = (.fails (.programTooLarge program.length), s)) ∧
    ((∀ r, s.engine ≠ .faulted r) → program.length ≤ 32768 →
      (hostLoad program s).1 = .done ∧
      (∀ q : Nat, (hostLoad program s).2.mem.read q =
        if q = 65532 then 0x00 else if q = 65533 then 0x80
        else if 32768 ≤ q ∧ q < 32768 + program.length then program.getD (q - 32768) 0 else s.mem.read q) ∧
      { (hostLoad program s).2 with mem := s.mem } = s) ∧
    (∀ r, s.engine = .faulted r → hostLoad program s = (.faults r, s))

/-- `interpret` on a constructed engine (spec/70_reset_and_hazards.md R146, decision D22): a program that is too
long fails and nothing changes; else the run starts at 0x8000 with A, X, Y and every flag 0 over the loaded
memory. -/
def Obligations.InterpretRunsTheLoadedProgram : Prop :=
  ∀ (cfg : Config) (fuel : Nat) (program : List Byte),
    (program.length > 32768 →
      hostInterpret fuel program (construct cfg) = (.fails (.programTooLarge program.length), construct cfg)) ∧
    (program.length ≤ 32768 →
      hostInterpret fuel program (construct cfg) =
        hostRun fuel { State.reset with pc := 0x8000, mem := (hostLoad program (construct cfg)).2.mem })

/-- `run` ends well only at a break (spec/40_execution_cycle.md R86, R87, spec/70_reset_and_hazards.md R160): from
an executable state a halt leaves the engine Halted with the break's 0x00 byte before PC, and a fault leaves it
Faulted with that reason; memory is as it was. That PC is past the break is D3 and D20 (log entry 5). -/
def Obligations.RunEndsAtABreakOrAFault : Prop :=
  ∀ (fuel : Nat) (s t : State) (reply : Reply), s.Executable → hostRun fuel s = (reply, t) →
    t.mem = s.mem ∧
    ((reply = .halts ∧ t.engine = .halted ∧ byteAt t (t.pc.toNat + 65535) = 0x00) ∨
      (∃ r, reply = .faults r ∧ t.engine = .faulted r) ∨ (reply = .outOfFuel ∧ t.Executable))

/-- More fuel does not change a run that has ended (spec/40_execution_cycle.md R88; fuel is the model's own, log
entry 14). -/
def Obligations.FinishedRunsIgnoreExtraFuel : Prop :=
  ∀ (fuel extra : Nat) (s t : State) (reply : Reply), hostRun fuel s = (reply, t) → reply ≠ .outOfFuel →
    hostRun (fuel + extra) s = (reply, t)

/-- A jump to its own address never ends (spec/40_execution_cycle.md R87, spec/44_jump.md R119, C3; log entry 7):
under every fuel the run is still there, with nothing changed but the control state. -/
def Obligations.SelfJumpRunsForever : Prop :=
  ∀ (fuel : Nat) (s : State), s.Executable → byteAt s s.pc.toNat = 0x4C → s.pc ≠ 0xFFFE#16 →
    wordAt s (s.pc.toNat + 1) = s.pc.toNat →
    hostRun (fuel + 1) s = (.outOfFuel, { s with engine := .running })

/-- Faulted is absorbing (spec/60_exceptions.md R128, the spec's decision D8; log entry 1): no host operation leaves
it or changes a register or flag; step, run, reset, load and interpret return the reason again and change nothing. -/
def Obligations.FaultedIsAbsorbing : Prop :=
  ∀ (op : HostOp) (s : State) (r : Fault), s.engine = .faulted r →
    { (applyHostOp op s).2 with mem := s.mem } = s ∧
    hostStep s = (.faults r, s) ∧ hostReset s = (.faults r, s) ∧
    (∀ fuel, hostRun (fuel + 1) s = (.faults r, s)) ∧
    (∀ fuel program, hostLoad program s = (.faults r, s) ∧ hostInterpret fuel program s = (.faults r, s))

/-- Only reset, called by the host or by `interpret`, leaves Halted (spec/60_exceptions.md R134, R140, the spec's
decision D9; log entry 9); every other operation keeps the registers and flags. -/
def Obligations.OnlyResetLeavesHalted : Prop :=
  ∀ (op : HostOp) (s : State), s.engine = .halted →
    op = .reset ∨ (∃ fuel program, op = .interpret fuel program) ∨
      { (applyHostOp op s).2 with mem := s.mem } = s

/-- The host operations fail exactly under the conditions of spec/60_exceptions.md R127, with its failures, and a
failing one changes nothing. That a failing `write16` or `write_range` writes no byte is D12 (log entry 10), that
`interpret` stops at the failure of its load is D22 (log entry 8), and that `load` outside Faulted is allowed in every
state, and from Faulted returns the fault before any check, is D9 (log entry 9). -/
def Obligations.FailingHostOperationsChangeNothing : Prop :=
  ∀ (op : HostOp) (s : State) (f : Failure),
    ((applyHostOp op s).1 = .fails f ↔
      ((op = .read16 0xFFFF ∨ ∃ w, op = .write16 0xFFFF w) ∧ f = .wordAccessAtTop 0xFFFF) ∨
      (∃ start bytes, op = .writeRange start bytes ∧ start.toNat + bytes.length > 65536 ∧
        f = .rangeOutOfBounds start bytes.length) ∨
      (∃ program, (op = .load program ∨ ∃ fuel, op = .interpret fuel program) ∧ program.length > 32768 ∧
        (∀ r, s.engine ≠ .faulted r) ∧ f = .programTooLarge program.length)) ∧
    ((applyHostOp op s).1 = .fails f → (applyHostOp op s).2 = s)

/-- Engines are independent (spec/60_exceptions.md R138): an operation on one engine acts on it as on a single
engine and leaves every other one as it was. -/
def Obligations.EnginesAreIndependent : Prop :=
  ∀ (k : Nat) (op : HostOp) (engines : List State),
    (applyToEngine k op engines).2.length = engines.length ∧
    (applyToEngine k op engines).2[k]? = engines[k]?.map (fun s => (applyHostOp op s).2) ∧
    (applyToEngine k op engines).1 = engines[k]?.map (fun s => (applyHostOp op s).1) ∧
    ∀ j, j ≠ k → (applyToEngine k op engines).2[j]? = engines[j]?
end

