-- ==== Sys2Proof/Laws/Decode.lean ====
section
/-! SUPPORT. The byte-order helpers in natural-number arithmetic, the flag tests as comparisons, and what the table
lookup and the fetch find. -/

namespace Sys2Proof

/-- `{h, l}` is `h * 256 + l` (spec/00_scope.md R9). -/
theorem wordOf_toNat (h l : Byte) : (wordOf h l).toNat = h.toNat * 256 + l.toNat := by
  simp only [wordOf, BitVec.toNat_append]
  rw [← Nat.shiftLeft_add_eq_or_of_lt l.isLt, Nat.shiftLeft_eq]

theorem lowByte_toNat (w : Word) : (lowByte w).toNat = w.toNat % 256 := by simp [lowByte]

theorem highByte_toNat (w : Word) : (highByte w).toNat = w.toNat / 256 := by
  have := w.isLt
  simp [highByte, Nat.shiftRight_eq_div_pow]
  omega

theorem zext16_toNat (b : Byte) : (zext16 b).toNat = b.toNat := by
  have := b.isLt
  simp [zext16]
  omega

@[simp] theorem wordOf_highByte_lowByte (w : Word) : wordOf (highByte w) (lowByte w) = w := by
  apply BitVec.eq_of_toNat_eq
  rw [wordOf_toNat, lowByte_toNat, highByte_toNat]
  omega

@[simp] theorem lowByte_wordOf (h l : Byte) : lowByte (wordOf h l) = l := by
  apply BitVec.eq_of_toNat_eq
  have := l.isLt
  rw [lowByte_toNat, wordOf_toNat]
  omega

@[simp] theorem highByte_wordOf (h l : Byte) : highByte (wordOf h l) = h := by
  apply BitVec.eq_of_toNat_eq
  have := l.isLt
  rw [highByte_toNat, wordOf_toNat]
  omega

/-- Bit 7 of a byte says that it is 128 or more. -/
theorem getLsbD_seven (b : Byte) : b.getLsbD 7 = decide (128 ≤ b.toNat) := by revert b; decide

theorem beq_zero (b : Byte) : (b == 0x00#8) = decide (b.toNat = 0) := by revert b; decide

/-- An unmapped byte has no row; a mapped one is one of the twelve (spec/30_encoding.md R69). -/
theorem rowOf_eq_none_or (op : Byte) :
    rowOf op = none ∨ op = 0x00 ∨ op = 0x4C ∨ op = 0xA1 ∨ op = 0xA5 ∨ op = 0xA9 ∨ op = 0xAA ∨ op = 0xAD ∨
      op = 0xB1 ∨ op = 0xB5 ∨ op = 0xB9 ∨ op = 0xBD ∨ op = 0xE8 := by
  rw [← Option.isNone_iff_eq_none]
  revert op
  decide

/-- The sum of an address and a count, in natural numbers. -/
theorem word_add (p : Word) (n : Nat) : p + BitVec.ofNat 16 n = BitVec.ofNat 16 (p.toNat + n) := by
  apply BitVec.eq_of_toNat_eq
  simp [BitVec.toNat_add]

end Sys2Proof

namespace Sys2Proof.Machine

/-- A byte with no row is fetched as no instruction. -/
theorem fetchInstr_of_rowOf_none {s : State} (h : rowOf (readByte s s.pc) = none) : fetchInstr s = none := by
  rw [fetchInstr, fetchBytes, decode, h]

/-- What is fetched is what the three bytes decode to. -/
theorem fetchInstr_of_decode {s : State} {i : Instr} {rest : List Byte}
    (h : decode (fetchBytes s) = .ok (i, rest)) : fetchInstr s = some i := by
  rw [fetchInstr, h]

end Sys2Proof.Machine
end

