-- ==== Sys2Proof/Laws/State.lean ====
section
/-! SUPPORT. What each update of the state writes and leaves: one lemma for each field and update, and the
composed updates of the handlers written over them. -/

namespace Sys2Proof.Machine

variable (s : State)

/-! ### setA -/

@[simp] theorem setA_a (w : Byte) : (setA w s).a = w := rfl
@[simp] theorem setA_x (w : Byte) : (setA w s).x = s.x := rfl
@[simp] theorem setA_y (w : Byte) : (setA w s).y = s.y := rfl
@[simp] theorem setA_pc (w : Byte) : (setA w s).pc = s.pc := rfl
@[simp] theorem setA_c (w : Byte) : (setA w s).c = s.c := rfl
@[simp] theorem setA_z (w : Byte) : (setA w s).z = s.z := rfl
@[simp] theorem setA_i (w : Byte) : (setA w s).i = s.i := rfl
@[simp] theorem setA_d (w : Byte) : (setA w s).d = s.d := rfl
@[simp] theorem setA_b (w : Byte) : (setA w s).b = s.b := rfl
@[simp] theorem setA_v (w : Byte) : (setA w s).v = s.v := rfl
@[simp] theorem setA_n (w : Byte) : (setA w s).n = s.n := rfl
@[simp] theorem setA_mem (w : Byte) : (setA w s).mem = s.mem := rfl
@[simp] theorem setA_engine (w : Byte) : (setA w s).engine = s.engine := rfl
@[simp] theorem setA_unwritten (w : Byte) : (setA w s).unwritten = s.unwritten := rfl

/-! ### setX -/

@[simp] theorem setX_a (w : Byte) : (setX w s).a = s.a := rfl
@[simp] theorem setX_x (w : Byte) : (setX w s).x = w := rfl
@[simp] theorem setX_y (w : Byte) : (setX w s).y = s.y := rfl
@[simp] theorem setX_pc (w : Byte) : (setX w s).pc = s.pc := rfl
@[simp] theorem setX_c (w : Byte) : (setX w s).c = s.c := rfl
@[simp] theorem setX_z (w : Byte) : (setX w s).z = s.z := rfl
@[simp] theorem setX_i (w : Byte) : (setX w s).i = s.i := rfl
@[simp] theorem setX_d (w : Byte) : (setX w s).d = s.d := rfl
@[simp] theorem setX_b (w : Byte) : (setX w s).b = s.b := rfl
@[simp] theorem setX_v (w : Byte) : (setX w s).v = s.v := rfl
@[simp] theorem setX_n (w : Byte) : (setX w s).n = s.n := rfl
@[simp] theorem setX_mem (w : Byte) : (setX w s).mem = s.mem := rfl
@[simp] theorem setX_engine (w : Byte) : (setX w s).engine = s.engine := rfl
@[simp] theorem setX_unwritten (w : Byte) : (setX w s).unwritten = s.unwritten := rfl

/-! ### setPC -/

@[simp] theorem setPC_a (w : Word) : (setPC w s).a = s.a := rfl
@[simp] theorem setPC_x (w : Word) : (setPC w s).x = s.x := rfl
@[simp] theorem setPC_y (w : Word) : (setPC w s).y = s.y := rfl
@[simp] theorem setPC_pc (w : Word) : (setPC w s).pc = w := rfl
@[simp] theorem setPC_c (w : Word) : (setPC w s).c = s.c := rfl
@[simp] theorem setPC_z (w : Word) : (setPC w s).z = s.z := rfl
@[simp] theorem setPC_i (w : Word) : (setPC w s).i = s.i := rfl
@[simp] theorem setPC_d (w : Word) : (setPC w s).d = s.d := rfl
@[simp] theorem setPC_b (w : Word) : (setPC w s).b = s.b := rfl
@[simp] theorem setPC_v (w : Word) : (setPC w s).v = s.v := rfl
@[simp] theorem setPC_n (w : Word) : (setPC w s).n = s.n := rfl
@[simp] theorem setPC_mem (w : Word) : (setPC w s).mem = s.mem := rfl
@[simp] theorem setPC_engine (w : Word) : (setPC w s).engine = s.engine := rfl
@[simp] theorem setPC_unwritten (w : Word) : (setPC w s).unwritten = s.unwritten := rfl

/-! ### setEngine -/

@[simp] theorem setEngine_a (e : Engine) : (setEngine e s).a = s.a := rfl
@[simp] theorem setEngine_x (e : Engine) : (setEngine e s).x = s.x := rfl
@[simp] theorem setEngine_y (e : Engine) : (setEngine e s).y = s.y := rfl
@[simp] theorem setEngine_pc (e : Engine) : (setEngine e s).pc = s.pc := rfl
@[simp] theorem setEngine_c (e : Engine) : (setEngine e s).c = s.c := rfl
@[simp] theorem setEngine_z (e : Engine) : (setEngine e s).z = s.z := rfl
@[simp] theorem setEngine_i (e : Engine) : (setEngine e s).i = s.i := rfl
@[simp] theorem setEngine_d (e : Engine) : (setEngine e s).d = s.d := rfl
@[simp] theorem setEngine_b (e : Engine) : (setEngine e s).b = s.b := rfl
@[simp] theorem setEngine_v (e : Engine) : (setEngine e s).v = s.v := rfl
@[simp] theorem setEngine_n (e : Engine) : (setEngine e s).n = s.n := rfl
@[simp] theorem setEngine_mem (e : Engine) : (setEngine e s).mem = s.mem := rfl
@[simp] theorem setEngine_engine (e : Engine) : (setEngine e s).engine = e := rfl
@[simp] theorem setEngine_unwritten (e : Engine) : (setEngine e s).unwritten = s.unwritten := rfl

/-! ### setZeroFlag -/

@[simp] theorem setZeroFlag_a (w : Byte) : (setZeroFlag w s).a = s.a := rfl
@[simp] theorem setZeroFlag_x (w : Byte) : (setZeroFlag w s).x = s.x := rfl
@[simp] theorem setZeroFlag_y (w : Byte) : (setZeroFlag w s).y = s.y := rfl
@[simp] theorem setZeroFlag_pc (w : Byte) : (setZeroFlag w s).pc = s.pc := rfl
@[simp] theorem setZeroFlag_c (w : Byte) : (setZeroFlag w s).c = s.c := rfl
@[simp] theorem setZeroFlag_z (w : Byte) : (setZeroFlag w s).z = (w == 0x00#8) := rfl
@[simp] theorem setZeroFlag_i (w : Byte) : (setZeroFlag w s).i = s.i := rfl
@[simp] theorem setZeroFlag_d (w : Byte) : (setZeroFlag w s).d = s.d := rfl
@[simp] theorem setZeroFlag_b (w : Byte) : (setZeroFlag w s).b = s.b := rfl
@[simp] theorem setZeroFlag_v (w : Byte) : (setZeroFlag w s).v = s.v := rfl
@[simp] theorem setZeroFlag_n (w : Byte) : (setZeroFlag w s).n = s.n := rfl
@[simp] theorem setZeroFlag_mem (w : Byte) : (setZeroFlag w s).mem = s.mem := rfl
@[simp] theorem setZeroFlag_engine (w : Byte) : (setZeroFlag w s).engine = s.engine := rfl
@[simp] theorem setZeroFlag_unwritten (w : Byte) : (setZeroFlag w s).unwritten = s.unwritten := rfl

/-! ### setNegativeFlag -/

@[simp] theorem setNegativeFlag_a (w : Byte) : (setNegativeFlag w s).a = s.a := rfl
@[simp] theorem setNegativeFlag_x (w : Byte) : (setNegativeFlag w s).x = s.x := rfl
@[simp] theorem setNegativeFlag_y (w : Byte) : (setNegativeFlag w s).y = s.y := rfl
@[simp] theorem setNegativeFlag_pc (w : Byte) : (setNegativeFlag w s).pc = s.pc := rfl
@[simp] theorem setNegativeFlag_c (w : Byte) : (setNegativeFlag w s).c = s.c := rfl
@[simp] theorem setNegativeFlag_z (w : Byte) : (setNegativeFlag w s).z = s.z := rfl
@[simp] theorem setNegativeFlag_i (w : Byte) : (setNegativeFlag w s).i = s.i := rfl
@[simp] theorem setNegativeFlag_d (w : Byte) : (setNegativeFlag w s).d = s.d := rfl
@[simp] theorem setNegativeFlag_b (w : Byte) : (setNegativeFlag w s).b = s.b := rfl
@[simp] theorem setNegativeFlag_v (w : Byte) : (setNegativeFlag w s).v = s.v := rfl
@[simp] theorem setNegativeFlag_n (w : Byte) : (setNegativeFlag w s).n = w.getLsbD 7 := rfl
@[simp] theorem setNegativeFlag_mem (w : Byte) : (setNegativeFlag w s).mem = s.mem := rfl
@[simp] theorem setNegativeFlag_engine (w : Byte) : (setNegativeFlag w s).engine = s.engine := rfl
@[simp] theorem setNegativeFlag_unwritten (w : Byte) : (setNegativeFlag w s).unwritten = s.unwritten := rfl

/-! ### clearFlags -/

@[simp] theorem clearFlags_a : (clearFlags s).a = s.a := rfl
@[simp] theorem clearFlags_x : (clearFlags s).x = s.x := rfl
@[simp] theorem clearFlags_y : (clearFlags s).y = s.y := rfl
@[simp] theorem clearFlags_pc : (clearFlags s).pc = s.pc := rfl
@[simp] theorem clearFlags_c : (clearFlags s).c = false := rfl
@[simp] theorem clearFlags_z : (clearFlags s).z = false := rfl
@[simp] theorem clearFlags_i : (clearFlags s).i = false := rfl
@[simp] theorem clearFlags_d : (clearFlags s).d = false := rfl
@[simp] theorem clearFlags_b : (clearFlags s).b = false := rfl
@[simp] theorem clearFlags_v : (clearFlags s).v = false := rfl
@[simp] theorem clearFlags_n : (clearFlags s).n = false := rfl
@[simp] theorem clearFlags_mem : (clearFlags s).mem = s.mem := rfl
@[simp] theorem clearFlags_engine : (clearFlags s).engine = s.engine := rfl
@[simp] theorem clearFlags_unwritten : (clearFlags s).unwritten = s.unwritten := rfl

/-! ### writeByte -/

@[simp] theorem writeByte_a (q : Word) (w : Byte) : (writeByte q w s).a = s.a := rfl
@[simp] theorem writeByte_x (q : Word) (w : Byte) : (writeByte q w s).x = s.x := rfl
@[simp] theorem writeByte_y (q : Word) (w : Byte) : (writeByte q w s).y = s.y := rfl
@[simp] theorem writeByte_pc (q : Word) (w : Byte) : (writeByte q w s).pc = s.pc := rfl
@[simp] theorem writeByte_c (q : Word) (w : Byte) : (writeByte q w s).c = s.c := rfl
@[simp] theorem writeByte_z (q : Word) (w : Byte) : (writeByte q w s).z = s.z := rfl
@[simp] theorem writeByte_i (q : Word) (w : Byte) : (writeByte q w s).i = s.i := rfl
@[simp] theorem writeByte_d (q : Word) (w : Byte) : (writeByte q w s).d = s.d := rfl
@[simp] theorem writeByte_b (q : Word) (w : Byte) : (writeByte q w s).b = s.b := rfl
@[simp] theorem writeByte_v (q : Word) (w : Byte) : (writeByte q w s).v = s.v := rfl
@[simp] theorem writeByte_n (q : Word) (w : Byte) : (writeByte q w s).n = s.n := rfl
@[simp] theorem writeByte_mem (q : Word) (w : Byte) : (writeByte q w s).mem = s.mem.write q.toNat w := rfl
@[simp] theorem writeByte_engine (q : Word) (w : Byte) : (writeByte q w s).engine = s.engine := rfl
@[simp] theorem writeByte_unwritten (q : Word) (w : Byte) : (writeByte q w s).unwritten = s.unwritten := rfl

/-! ### The composed updates -/

@[simp] theorem takeFault_eq (r : Fault) : takeFault r s = setEngine (.faulted r) s := rfl

@[simp] theorem raise_eq (r : Fault) : raise r s = .next (setEngine (.faulted r) s) := rfl

@[simp] theorem advance_eq (length : Nat) : advance length s = setPC (s.pc + BitVec.ofNat 16 length) s := rfl

@[simp] theorem finish_eq (length : Nat) :
    finish length s = setEngine .running (setPC (s.pc + BitVec.ofNat 16 length) s) := rfl

@[simp] theorem loadAccumulator_eq (w : Byte) :
    loadAccumulator w s = { s with a := w, z := w == 0x00#8, n := w.getLsbD 7 } := rfl

@[simp] theorem loadX_eq (w : Byte) :
    loadX w s = { s with x := w, z := w == 0x00#8, n := w.getLsbD 7 } := rfl

/-- The flag helpers never leave Z and N both 1 (spec/43_load.md R110): bit 7 of zero is 0. -/
theorem zero_and_negative_exclusive (w : Byte) : ((w == 0x00#8) && w.getLsbD 7) = false := by
  rcases Decidable.em (w = 0x00#8) with rfl | h <;> simp_all

/-- Reading a byte looks only at memory. -/
theorem readByte_congr {s t : State} (h : t.mem = s.mem) (q : Word) : readByte t q = readByte s q := by
  simp [readByte, h]

end Sys2Proof.Machine
end

