-- ==== Sys2Proof/Laws/Memory.lean ====
section
/-! SUPPORT. The memory laws: a read after a write, the canonical form and that every memory operation keeps it,
and that canonical memories that read alike are equal. -/

namespace Sys2Proof.Machine

@[simp] theorem read_nil (q : Nat) : Memory.read [] q = Memory.unlisted := rfl

/-- Below its first address a canonical memory reads as unlisted. -/
theorem read_below {lo : Nat} {m : Memory} (hm : Memory.wfFrom lo m = true) {q : Nat} (hq : q < lo) :
    m.read q = Memory.unlisted := by
  induction m generalizing lo with
  | nil => rfl
  | cons e rest ih =>
    obtain ⟨k, w⟩ := e
    simp only [Memory.wfFrom, Bool.and_eq_true, decide_eq_true_eq] at hm
    have hk : k ≠ q := by omega
    simp only [Memory.read, if_neg hk]
    exact ih hm.2 (by omega)

/-- A canonical form from `lo` is one from any lower address. -/
theorem wfFrom_mono {lo lo' : Nat} (h : lo' ≤ lo) {m : Memory} (hm : Memory.wfFrom lo m = true) :
    Memory.wfFrom lo' m = true := by
  cases m with
  | nil => rfl
  | cons e rest =>
    simp only [Memory.wfFrom, Bool.and_eq_true, decide_eq_true_eq] at hm ⊢
    exact ⟨⟨⟨by omega, hm.1.1.2⟩, hm.1.2⟩, hm.2⟩

/-- A write inside the address space keeps the canonical form. -/
theorem wfFrom_write {lo : Nat} {m : Memory} (hm : Memory.wfFrom lo m = true) {q : Nat} (hlo : lo ≤ q)
    (hq : q < 65536) (w : Byte) : Memory.wfFrom lo (m.write q w) = true := by
  induction m generalizing lo with
  | nil =>
    by_cases hw : w = Memory.unlisted <;> simp [Memory.write, Memory.wfFrom, hw, hlo, hq]
  | cons e rest ih =>
    obtain ⟨k, u⟩ := e
    have hcons := hm
    simp only [Memory.wfFrom, Bool.and_eq_true, decide_eq_true_eq] at hm
    obtain ⟨⟨⟨hk, hk'⟩, hu⟩, hrest⟩ := hm
    simp only [Memory.write]
    rcases Nat.lt_trichotomy q k with h | h | h
    · rw [if_pos h]
      split
      · exact hcons
      · rename_i hw
        simp [Memory.wfFrom, hlo, hq, hw, hk', hu, hrest, h]
    · subst h
      rw [if_neg (Nat.lt_irrefl q), if_pos rfl]
      split
      · exact wfFrom_mono (by omega) hrest
      · rename_i hw
        simp [Memory.wfFrom, hlo, hq, hw, hrest]
    · rw [if_neg (by omega), if_neg (by omega)]
      simp [Memory.wfFrom, hk, hk', hu, ih hrest (by omega)]

/-- What a read sees after a write into a canonical memory. -/
theorem read_write_from {lo : Nat} {m : Memory} (hm : Memory.wfFrom lo m = true) (q r : Nat) (w : Byte) :
    (m.write q w).read r = if r = q then w else m.read r := by
  induction m generalizing lo with
  | nil =>
    by_cases hw : w = Memory.unlisted <;> by_cases hr : r = q <;>
      simp [Memory.write, Memory.read, hw, hr, eq_comm (a := q)]
  | cons e rest ih =>
    obtain ⟨k, u⟩ := e
    simp only [Memory.wfFrom, Bool.and_eq_true, decide_eq_true_eq] at hm
    simp only [Memory.write]
    rcases Nat.lt_trichotomy q k with h | h | h
    · rw [if_pos h]
      split
      · rename_i hw
        by_cases hr : r = q
        · rw [if_pos hr, hw, Memory.read, if_neg (by omega), read_below hm.2 (by omega)]
        · rw [if_neg hr]
      · by_cases hr : r = q
        · rw [if_pos hr, Memory.read, if_pos hr.symm]
        · rw [if_neg hr, Memory.read, if_neg (fun he => hr he.symm)]
    · subst h
      rw [if_neg (Nat.lt_irrefl q), if_pos rfl]
      split
      · rename_i hw
        by_cases hr : r = q
        · rw [if_pos hr, hw, hr, read_below hm.2 (by omega)]
        · rw [if_neg hr, Memory.read, if_neg (fun he => hr he.symm)]
      · by_cases hr : r = q
        · rw [if_pos hr, Memory.read, if_pos hr.symm]
        · rw [if_neg hr, Memory.read, if_neg (fun he => hr he.symm), Memory.read,
            if_neg (fun he => hr he.symm)]
    · rw [if_neg (by omega), if_neg (by omega), Memory.read, Memory.read, ih hm.2]
      by_cases hr : r = q
      · rw [if_pos hr, if_pos hr, if_neg (by omega)]
      · rw [if_neg hr, if_neg hr]

/-- What a read sees after a write, in any memory whose addresses are in order. -/
theorem read_write {m : Memory} (hm : m.wf = true) (q r : Nat) (w : Byte) :
    (m.write q w).read r = if r = q then w else m.read r := read_write_from hm q r w

theorem wf_write {m : Memory} (hm : m.wf = true) {q : Nat} (hq : q < 65536) (w : Byte) :
    (m.write q w).wf = true := wfFrom_write hm (Nat.zero_le q) hq w

/-- A sequence written inside the address space keeps the canonical form. -/
theorem wf_writeList {m : Memory} (hm : m.wf = true) {start : Nat} {ws : List Byte}
    (h : start + ws.length ≤ 65536) : (m.writeList start ws).wf = true := by
  induction ws generalizing m start with
  | nil => exact hm
  | cons w ws ih =>
    rw [List.length_cons] at h
    exact ih (wf_write hm (by omega) w) (by omega)

/-- What a read sees after a sequence was written. -/
theorem read_writeList {m : Memory} (hm : m.wf = true) {start : Nat} {ws : List Byte}
    (h : start + ws.length ≤ 65536) (r : Nat) :
    (m.writeList start ws).read r =
      if start ≤ r ∧ r < start + ws.length then ws.getD (r - start) 0 else m.read r := by
  induction ws generalizing m start with
  | nil =>
    rw [if_neg (by simp only [List.length_nil]; omega)]
    rfl
  | cons w ws ih =>
    rw [List.length_cons] at h ⊢
    rw [Memory.writeList, ih (wf_write hm (by omega) w) (by omega), read_write hm]
    rcases Nat.lt_trichotomy r start with hr | hr | hr
    · rw [if_neg (by omega), if_neg (by omega), if_neg (by omega)]
    · rw [if_neg (by omega), if_pos hr, if_pos (by omega)]
      simp [hr]
    · by_cases hr' : r < start + (ws.length + 1)
      · rw [if_pos (by omega), if_pos (by omega), show r - start = (r - (start + 1)) + 1 by omega,
          List.getD_cons_succ]
      · rw [if_neg (by omega), if_neg (by omega), if_neg (by omega)]

/-- Canonical memories that read alike are the same list. -/
theorem wfFrom_ext {lo lo' : Nat} {m m' : Memory} (hm : Memory.wfFrom lo m = true)
    (hm' : Memory.wfFrom lo' m' = true) (h : ∀ q, m.read q = m'.read q) : m = m' := by
  induction m generalizing lo lo' m' with
  | nil =>
    cases m' with
    | nil => rfl
    | cons e' rest' =>
      obtain ⟨k', u'⟩ := e'
      simp only [Memory.wfFrom, Bool.and_eq_true, decide_eq_true_eq] at hm'
      have := h k'
      simp only [Memory.read, if_pos] at this
      exact absurd this.symm hm'.1.2
  | cons e rest ih =>
    obtain ⟨k, u⟩ := e
    simp only [Memory.wfFrom, Bool.and_eq_true, decide_eq_true_eq] at hm
    cases m' with
    | nil =>
      have := h k
      simp only [Memory.read, if_pos] at this
      exact absurd this hm.1.2
    | cons e' rest' =>
      obtain ⟨k', u'⟩ := e'
      have hm'' := hm'
      simp only [Memory.wfFrom, Bool.and_eq_true, decide_eq_true_eq] at hm'
      have hkk : k = k' := by
        rcases Nat.lt_trichotomy k k' with hlt | heq | hgt
        · have hr := h k
          rw [Memory.read, if_pos rfl, Memory.read, if_neg (by omega), read_below hm'.2 (by omega)] at hr
          exact absurd hr hm.1.2
        · exact heq
        · have hr := h k'
          rw [Memory.read, if_neg (by omega), read_below hm.2 (by omega), Memory.read, if_pos rfl] at hr
          exact absurd hr.symm hm'.1.2
      subst hkk
      have huu : u = u' := by simpa [Memory.read] using h k
      subst huu
      have hrest : rest = rest' := by
        refine ih hm.2 hm'.2 (fun q => ?_)
        by_cases hq : k = q
        · subst hq
          rw [read_below hm.2 (by omega), read_below hm'.2 (by omega)]
        · simpa [Memory.read, hq] using h q
      rw [hrest]

theorem wf_ext {m m' : Memory} (hm : m.wf = true) (hm' : m'.wf = true) (h : ∀ q, m.read q = m'.read q) :
    m = m' := wfFrom_ext hm hm' h

/-! ### At the level of the state -/

theorem reset_mem_wf : State.reset.mem.wf = true := rfl

theorem construct_mem_wf (cfg : Config) : (construct cfg).mem.wf = true := rfl

theorem writeByte_wf {s : State} (h : s.mem.wf = true) (q : Word) (w : Byte) :
    (writeByte q w s).mem.wf = true := wf_write h q.isLt w

theorem writeWord_wf {s : State} (h : s.mem.wf = true) (q w : Word) : (writeWord q w s).mem.wf = true :=
  writeByte_wf (writeByte_wf h _ _) _ _

theorem readByte_writeByte {s : State} (h : s.mem.wf = true) (q r : Word) (w : Byte) :
    readByte (writeByte q w s) r = if r = q then w else readByte s r := by
  simp only [readByte, writeByte_mem, read_write h, BitVec.toNat_inj]

end Sys2Proof.Machine
end

