-- ==== Sys2Proof/Laws/Step.lean ====
section
/-! SUPPORT. Everything a load, an instruction and a step can do, said once: one inversion lemma for each, with its
guards. -/

namespace Sys2Proof.Machine

/-- Where a 16-bit operand may be read, and what it is then (spec/41_address_resolver.md R96). -/
theorem operandWord_cases (pc0 w : Word) :
    (pc0 = 0xFFFE#16 ∧ operandWord pc0 w = .error (.wordAccessAtTop 0xFFFF#16)) ∨
      (pc0 ≠ 0xFFFE#16 ∧ operandWord pc0 w = .ok w) := by
  by_cases h : pc0 = 0xFFFE#16
  · subst h
    exact .inl ⟨rfl, rfl⟩
  · refine .inr ⟨h, ?_⟩
    have : ¬ pc0 + 1 = topAddress := by
      simp only [topAddress]
      bv_omega
    rw [operandWord, if_neg this]

/-- A load faults with its operand's fault, or loads the byte at its address. -/
theorem loadFrom_cases {length : Nat} {ea : Except Fault Word} {s t : State} (h : loadFrom length ea s = .next t) :
    (∃ r, ea = .error r ∧ t = takeFault r s) ∨
      (∃ q, ea = .ok q ∧ t = finish length (loadAccumulator (readByte s q) s)) := by
  cases ea with
  | error r => exact .inl ⟨r, rfl, by simpa [loadFrom] using h.symm⟩
  | ok q => exact .inr ⟨q, rfl, by simpa [loadFrom] using h.symm⟩

/-- A load always answers a next state. -/
theorem loadFrom_next (length : Nat) (ea : Except Fault Word) (s : State) : ∃ t, loadFrom length ea s = .next t := by
  cases ea with
  | error r => exact ⟨_, rfl⟩
  | ok q => exact ⟨_, rfl⟩

/-- What an instruction can do to a state. -/
inductive Effect (i : Instr) (s : State) : State → Prop where
  /-- The word read of a 16-bit operand at 0xFFFF. -/
  | trap (h : i.operand.format = .op16) (hpc : s.pc = 0xFFFE#16) :
      Effect i s (takeFault (.wordAccessAtTop 0xFFFF#16) s)
  | halt (h : i.mnemonic = .brk) : Effect i s (setEngine .halted (advance 1 s))
  | load (h : i.mnemonic = .lda) (v : Byte) : Effect i s (finish (encode i).length (loadAccumulator v s))
  | jump (h : i.mnemonic = .jmp) (w : Word) (hw : i.operand = .word w) : Effect i s (setEngine .running (setPC w s))
  | increment (h : i.mnemonic = .inx) : Effect i s (finish (encode i).length (loadX (s.x + 1) s))
  | transfer (h : i.mnemonic = .tax) : Effect i s (finish (encode i).length (loadX s.a s))

/-- A load through a 16-bit operand traps at 0xFFFE or loads. -/
theorem effect_of_loadFrom_map {i : Instr} (hi : i.mnemonic = .lda) (hf : i.operand.format = .op16)
    (hl : (encode i).length = 3) (f : Word → Word) {w : Word} {s t : State}
    (h : loadFrom 3 ((operandWord s.pc w).map f) s = .next t) : Effect i s t := by
  rcases operandWord_cases s.pc w with ⟨hpc, ho⟩ | ⟨-, ho⟩ <;> rw [ho] at h
  · rcases loadFrom_cases h with ⟨r, hr, rfl⟩ | ⟨q, hq, -⟩
    · cases hr
      exact .trap hf hpc
    · cases hq
  · rcases loadFrom_cases h with ⟨r, hr, -⟩ | ⟨q, -, rfl⟩
    · cases hr
    · exact hl ▸ .load hi _

/-- A load with an address that is always there loads. -/
theorem effect_of_loadFrom_ok {i : Instr} (hi : i.mnemonic = .lda) (hl : (encode i).length = 2) {q : Word}
    {s t : State} (h : loadFrom 2 (.ok q) s = .next t) : Effect i s t := by
  rcases loadFrom_cases h with ⟨r, hr, -⟩ | ⟨q, -, rfl⟩
  · cases hr
  · exact hl ▸ .load hi _

/-- Everything `exec` can do. -/
theorem exec_effect {i : Instr} {s t : State} (h : exec i s = .next t) : Effect i s t := by
  cases i with
  | brk => cases h; exact .halt rfl
  | ldaImm v => cases h; exact .load (i := .ldaImm v) rfl v
  | ldaZp o => exact effect_of_loadFrom_ok rfl rfl h
  | ldaZpX o => exact effect_of_loadFrom_ok rfl rfl h
  | ldaAbs w =>
    refine effect_of_loadFrom_map rfl rfl rfl id (w := w) ?_
    rw [← h]
    rcases operandWord_cases s.pc w with ⟨-, ho⟩ | ⟨-, ho⟩ <;> simp only [exec, execLdaAbs, eaAbsolute, ho] <;> rfl
  | ldaAbsX w => exact effect_of_loadFrom_map rfl rfl rfl _ h
  | ldaAbsY w => exact effect_of_loadFrom_map rfl rfl rfl _ h
  | ldaIndX o => exact effect_of_loadFrom_ok rfl rfl h
  | ldaIndY o => exact effect_of_loadFrom_ok rfl rfl h
  | jmpAbs w =>
    simp only [exec, execJmpAbs, eaAbsolute] at h
    rcases operandWord_cases s.pc w with ⟨hpc, ho⟩ | ⟨-, ho⟩ <;> rw [ho] at h <;> cases h
    · exact .trap rfl hpc
    · exact .jump rfl w rfl
  | inx => cases h; exact .increment rfl
  | tax => cases h; exact .transfer rfl

/-- Every instruction answers a next state. -/
theorem exec_next (i : Instr) (s : State) : ∃ t, exec i s = .next t := by
  cases i with
  | brk => exact ⟨_, rfl⟩
  | ldaImm v => exact ⟨_, rfl⟩
  | ldaZp o => exact loadFrom_next 2 (.ok _) s
  | ldaZpX o => exact loadFrom_next 2 (.ok _) s
  | ldaAbs w => exact loadFrom_next _ _ _
  | ldaAbsX w => exact loadFrom_next _ _ _
  | ldaAbsY w => exact loadFrom_next _ _ _
  | ldaIndX o => exact loadFrom_next 2 (.ok _) s
  | ldaIndY o => exact loadFrom_next 2 (.ok _) s
  | jmpAbs w =>
    simp only [exec, execJmpAbs]
    split
    · exact ⟨_, rfl⟩
    · exact ⟨_, rfl⟩
  | inx => exact ⟨_, rfl⟩
  | tax => exact ⟨_, rfl⟩

/-- From an executable state a step is a fetch, then the instruction or the unknown-opcode fault. -/
theorem step_executable {s : State} (h : s.Executable) :
    step s = match fetchInstr s with
      | none => raise (.unknownOpcode (readByte s s.pc) s.pc) s
      | some i => exec i s := by
  obtain ⟨he | he, hu⟩ := h <;> simp only [step, he, hu] <;> rfl

/-- Before the first reset a step faults (spec/60_exceptions.md R126). -/
theorem step_unwritten {s : State} (he : s.engine = .idle ∨ s.engine = .running) (hu : s.unwritten = true) :
    step s = raise .readBeforeReset s := by
  rcases he with he | he <;> simp only [step, he, hu] <;> rfl

/-- Everything a step that answers a next state can do. -/
theorem step_cases {s t : State} (h : step s = .next t) :
    (s.engine = .halted ∧ t = s) ∨
      ((s.engine = .idle ∨ s.engine = .running) ∧ s.unwritten = true ∧ t = takeFault .readBeforeReset s) ∨
      (s.Executable ∧ fetchInstr s = none ∧ t = takeFault (.unknownOpcode (readByte s s.pc) s.pc) s) ∨
      (s.Executable ∧ ∃ i, fetchInstr s = some i ∧ exec i s = .next t ∧ Effect i s t) := by
  have cases_of : s.engine = .halted ∨ (∃ r, s.engine = .faulted r) ∨ s.engine = .idle ∨ s.engine = .running := by
    rcases s.engine with _ | _ | _ | r <;> simp
  rcases cases_of with he | ⟨r, he⟩ | he
  · simp only [step, he] at h
    cases h
    exact .inl ⟨he, rfl⟩
  · simp only [step, he] at h
    cases h
  · by_cases hu : s.unwritten = true
    · rw [step_unwritten he hu] at h
      cases h
      exact .inr (.inl ⟨he, hu, rfl⟩)
    · have hx : s.Executable := ⟨he, by simpa using hu⟩
      rw [step_executable hx] at h
      rcases hf : fetchInstr s with _ | i <;> rw [hf] at h
      · cases h
        exact .inr (.inr (.inl ⟨hx, rfl, rfl⟩))
      · exact .inr (.inr (.inr ⟨hx, i, rfl, h, exec_effect h⟩))

end Sys2Proof.Machine
end

