-- ==== Sys2Proof/Laws/HostOps.lean ====
section
/-! SUPPORT. Everything a host operation can do, said once: the reset and the load outside Faulted, the step as the
host sees it, and the induction over a run. -/

namespace Sys2Proof.Machine

theorem faulted_or_not (s : State) : (∃ r, s.engine = .faulted r) ∨ ∀ r, s.engine ≠ .faulted r := by
  rcases s.engine <;> simp

/-- Outside Faulted, `reset` writes every register and flag and the control state (spec/70_reset_and_hazards.md
R141). -/
theorem hostReset_eq {s : State} (h : ∀ r, s.engine ≠ .faulted r) :
    hostReset s = (.done, { State.reset with
      pc := wordOf (readByte s (resetVector + 1)) (readByte s resetVector), mem := s.mem }) := by
  rcases he : s.engine with _ | _ | _ | r
  case faulted => exact absurd he (h r)
  all_goals
    simp only [hostReset, he]
    rfl

/-- Outside Faulted, `load` fails or writes memory only (spec/70_reset_and_hazards.md R143). -/
theorem hostLoad_eq {s : State} (program : List Byte) (h : ∀ r, s.engine ≠ .faulted r) :
    hostLoad program s =
      if program.length > romCapacity then (.fails (.programTooLarge program.length), s)
      else (.done, writeWord resetVector loadBase { s with mem := s.mem.writeList loadBase.toNat program }) := by
  unfold hostLoad
  rcases he : s.engine with _ | _ | _ | r
  case faulted => exact absurd he (h r)
  all_goals rfl

theorem hostReset_faulted {s : State} {r : Fault} (h : s.engine = .faulted r) : hostReset s = (.faults r, s) := by
  simp only [hostReset, h]

theorem hostLoad_faulted {s : State} {r : Fault} (program : List Byte) (h : s.engine = .faulted r) :
    hostLoad program s = (.faults r, s) := by simp only [hostLoad, h]

/-- A host step is a step with its signal, or the fault of a faulted engine. -/
theorem hostStep_cases (s : State) :
    (∃ t, step s = .next t ∧ hostStep s = (signalOf t.engine, t)) ∨
      (∃ r, step s = .fault r ∧ hostStep s = (.faults r, s)) ∨
      ∃ q, step s = .refused q ∧ hostStep s = (.refuses q, s) := by
  rcases h : step s with t | r | q
  · exact .inl ⟨t, rfl, by rw [hostStep, h]⟩
  · exact .inr (.inl ⟨r, rfl, by rw [hostStep, h]⟩)
  · exact .inr (.inr ⟨q, rfl, by rw [hostStep, h]⟩)

/-- What every host step keeps, a run keeps. -/
theorem hostRun_keeps (P : State → Prop) (hP : ∀ s, P s → P (hostStep s).2) (fuel : Nat) (s : State) (h : P s) :
    P (hostRun fuel s).2 := by
  induction fuel generalizing s with
  | zero => exact h
  | succ fuel ih =>
    have hs := hP s h
    rw [hostRun]
    rcases he : hostStep s with ⟨reply, t⟩
    rw [he] at hs
    cases reply <;> first | exact ih t hs | exact hs

/-- What steps, loads and resets keep, `interpret` keeps. -/
theorem hostInterpret_keeps (P : State → Prop) (hP : ∀ s, P s → P (hostStep s).2)
    (hL : ∀ program s, P s → P (hostLoad program s).2) (hR : ∀ s, P s → P (hostReset s).2) (fuel : Nat)
    (program : List Byte) (s : State) (h : P s) : P (hostInterpret fuel program s).2 := by
  have hl := hL program s h
  unfold hostInterpret
  rcases he : hostLoad program s with ⟨reply, t⟩
  rw [he] at hl
  cases reply <;> first | exact hostRun_keeps P hP fuel _ (hR t hl) | exact hl

end Sys2Proof.Machine
end

