-- ==== Sys2Proof/Laws/PerInstr.lean ====
section
/-! SUPPORT. One statement about every instruction as syntax, with one lemma for each constructor: it is well-formed
and its encoding has one opcode byte and the operand bytes of its mode (spec/30_encoding.md R58, R64). -/

namespace Sys2Proof.Laws.EncodedLength

/-- The length of an instruction's encoding follows from its mode. -/
def Statement (i : Instr) : Prop := i.wf = true ∧ (encode i).length = 1 + i.mode.format.operandBytes

theorem brk : Statement .brk := ⟨rfl, rfl⟩

theorem ldaImm (v : Byte) : Statement (.ldaImm v) := ⟨rfl, rfl⟩

theorem ldaZp (o : Byte) : Statement (.ldaZp o) := ⟨rfl, rfl⟩

theorem ldaZpX (o : Byte) : Statement (.ldaZpX o) := ⟨rfl, rfl⟩

theorem ldaAbs (w : Word) : Statement (.ldaAbs w) := ⟨rfl, rfl⟩

theorem ldaAbsX (w : Word) : Statement (.ldaAbsX w) := ⟨rfl, rfl⟩

theorem ldaAbsY (w : Word) : Statement (.ldaAbsY w) := ⟨rfl, rfl⟩

theorem ldaIndX (o : Byte) : Statement (.ldaIndX o) := ⟨rfl, rfl⟩

theorem ldaIndY (o : Byte) : Statement (.ldaIndY o) := ⟨rfl, rfl⟩

theorem jmpAbs (w : Word) : Statement (.jmpAbs w) := ⟨rfl, rfl⟩

theorem inx : Statement .inx := ⟨rfl, rfl⟩

theorem tax : Statement .tax := ⟨rfl, rfl⟩

end Sys2Proof.Laws.EncodedLength
end

