-- ==== Sys2Proof/Tests/Slice0.lean ====
section
/-! SUPPORT. Tests on fixed values, each expected result taken from spec/95_test_vectors.md (the vector's id is in
the comment) or from the rule named there; the checks of WellFormed refusing ill-formed terms; and for every
obligation with hypotheses a concrete state and operands that meet them. -/

open Sys2Proof Sys2Proof.Machine Sys2Proof.Claims

namespace Sys2Proof.Tests

/-- An engine after reset, Running, with `PC` at `pc` and `bytes` stored from there up. -/
def machineAt (pc : Word) (bytes : List Byte) : State :=
  { State.reset with pc := pc, mem := Memory.writeList [] pc.toNat bytes, engine := .running }

/-- The next state of an outcome. -/
def nextOf (o : Host.Outcome State Fault Refusal) : Option State :=
  match o with
  | .next t => some t
  | .fault _ => none
  | .refused _ => none

/-- A state with one more byte. -/
def withByte (q : Word) (w : Byte) (s : State) : State := writeByte q w s

/-! ### WellFormed refuses -/

theorem test_wfAt_refuses_word_operand_at_top : Instr.wfAt 0xFFFE (.ldaAbs 0x1234) = false := by decide
theorem test_wfAt_accepts_word_operand_past_top : Instr.wfAt 0xFFFF (.ldaAbs 0x1234) = true := by decide
theorem test_descriptor_refuses_wrong_length : Descriptor.wf ⟨.lda, 2, 4, .absolute⟩ = false := by decide
theorem test_catalog_refuses_repeated_opcode :
    catalogWf [(0xE8, ⟨.inx, 1, 2, .implicit⟩), (0xE8, ⟨.tax, 1, 2, .implicit⟩)] = false := by decide
theorem test_catalog_is_well_formed : catalogWf (catalog.map (fun r => (r.opcode, r.descriptor))) = true := by decide

/-! ### Decoding: the words of spec/30_encoding.md R63, R69, R75, bit by bit -/

theorem test_decode_brk : decode [0b00000000] = .ok (.brk, []) := by rfl
theorem test_decode_lda_immediate : decode [0b10101001, 0b00001111] = .ok (.ldaImm 0x0F, []) := by rfl
theorem test_decode_lda_zeroPage : decode [0b10100101, 0b00010000] = .ok (.ldaZp 0x10, []) := by rfl
theorem test_decode_lda_zeroPageX : decode [0b10110101, 0b00010000] = .ok (.ldaZpX 0x10, []) := by rfl
theorem test_decode_lda_absolute : decode [0b10101101, 0b00110100, 0b00010010] = .ok (.ldaAbs 0x1234, []) := by rfl
theorem test_decode_lda_absoluteX : decode [0b10111101, 0b00110100, 0b00010010] = .ok (.ldaAbsX 0x1234, []) := by rfl
theorem test_decode_lda_absoluteY : decode [0b10111001, 0b00110100, 0b00010010] = .ok (.ldaAbsY 0x1234, []) := by rfl
theorem test_decode_lda_indirectX : decode [0b10100001, 0b00010000] = .ok (.ldaIndX 0x10, []) := by rfl
theorem test_decode_lda_indirectY : decode [0b10110001, 0b00010000] = .ok (.ldaIndY 0x10, []) := by rfl
theorem test_decode_jmp : decode [0b01001100, 0b00000000, 0b10000000] = .ok (.jmpAbs 0x8000, []) := by rfl
theorem test_decode_inx : decode [0b11101000, 0x55] = .ok (.inx, [0x55]) := by rfl
theorem test_decode_tax : decode [0b10101010] = .ok (.tax, []) := by rfl
/-- Vector S4: 0xEA is a NOP on a MOS 6502 and unmapped here. -/
theorem test_decode_rejects_nop : decode [0xEA] = .error (.unknownOpcode 0xEA) := by rfl
theorem test_decode_rejects_truncated : decode [0xAD, 0x34] = .error (.truncated 0xAD) := by rfl
theorem test_decodeTableWord_bytes : decodeTableWord 24 0x1234AD = some (.ldaAbs 0x1234) := by rfl
theorem test_decodeTableWord_zero_operand : decodeTableWord 8 0xA5 = some (.ldaZp 0x00) := by rfl
theorem test_withFetchWord_runs_it :
    step (State.reset.withFetchWord 24 0x1234AD) = exec (.ldaAbs 0x1234) (State.reset.withFetchWord 24 0x1234AD) := by
  rfl

/-! ### Assembler text: the examples of spec/30_encoding.md R75 -/

theorem test_asm_immediate : (Instr.ldaImm 0x0F).asm = ['L', 'D', 'A', ' ', '#', '$', '0', 'F'] := by decide
theorem test_asm_absoluteX :
    (Instr.ldaAbsX 0x1234).asm = ['L', 'D', 'A', ' ', '$', '1', '2', '3', '4', ',', 'X'] := by decide
theorem test_asm_indirectY :
    (Instr.ldaIndY 0x10).asm = ['L', 'D', 'A', ' ', '(', '$', '1', '0', ')', ',', 'Y'] := by decide

/-! ### One step of each instruction -/

/-- Vector B2. -/
theorem test_brk_at_top_of_memory :
    (nextOf (step (machineAt 0xFFFF [0x00]))).map (fun t => (t.pc, t.engine, t.b)) = some (0x0000, .halted, false) := by
  decide
/-- Vector L4. -/
theorem test_lda_immediate_flags :
    (nextOf (step { machineAt 0x8000 [0xA9, 0x80] with z := true })).map (fun t => (t.a, t.z, t.n, t.pc)) =
      some (0x80, false, true, 0x8002) := by decide
/-- Vector A2 and R111's corner case. -/
theorem test_lda_immediate_wraps :
    (nextOf (step (withByte 0x0000 0x42 (machineAt 0xFFFF [0xA9])))).map (fun t => (t.a, t.pc)) =
      some (0x42, 0x0001) := by decide
/-- R112's example. -/
theorem test_lda_zeroPage_zero :
    (nextOf (step { machineAt 0x8000 [0xA5, 0x42] with a := 0x55, n := true })).map (fun t => (t.a, t.z, t.n)) =
      some (0x00, true, false) := by decide
/-- Vector A5. -/
theorem test_lda_zeroPageX_wraps :
    (nextOf (step (withByte 0x0003 0x81 { machineAt 0x8000 [0xB5, 0xFF] with x := 0x04 }))).map
      (fun t => (t.a, t.n)) = some (0x81, true) := by decide
/-- Vector L6. -/
theorem test_lda_absolute_reads_itself :
    (nextOf (step (machineAt 0x8000 [0xAD, 0x00, 0x80]))).map (fun t => (t.a, t.z, t.n, t.pc)) =
      some (0xAD, false, true, 0x8003) := by decide
/-- Vector L7. -/
theorem test_lda_absolute_at_top_faults :
    (nextOf (step (machineAt 0xFFFE [0xAD, 0x12]))).map (fun t => (t.engine, t.pc, t.a)) =
      some (.faulted (.wordAccessAtTop 0xFFFF), 0xFFFE, 0x00) := by decide
/-- Vector A10: a page crossing has no effect. -/
theorem test_lda_absoluteX_crosses_page :
    (nextOf (step (withByte 0x1300 0x77 { machineAt 0x8000 [0xBD, 0xFF, 0x12] with x := 0x01 }))).map State.a =
      some 0x77 := by decide
/-- Vector A11. -/
theorem test_lda_absoluteX_wraps :
    (nextOf (step (withByte 0x0000 0x66 { machineAt 0x8000 [0xBD, 0xFF, 0xFF] with x := 0x01 }))).map State.a =
      some 0x66 := by decide
/-- R116's example, with X set so that an X in Y's place would show. -/
theorem test_lda_absoluteY_uses_y :
    (nextOf (step (withByte 0x0010 0x77 { machineAt 0x8000 [0xB9, 0x10, 0x00] with x := 0x05 }))).map
      (fun t => (t.a, t.z, t.n)) = some (0x77, false, false) := by decide
/-- R98's formula with Y not 0. -/
theorem test_lda_absoluteY_adds_y :
    (nextOf (step (withByte 0x1236 0x21 { machineAt 0x8000 [0xB9, 0x34, 0x12] with y := 0x02 }))).map State.a =
      some 0x21 := by decide
/-- Vector A16 and R117's example. -/
theorem test_lda_indirectX :
    (nextOf (step (withByte 0x9000 0xFE (withByte 0x0014 0x90
      { machineAt 0x8000 [0xA1, 0x10] with x := 0x03 })))).map (fun t => (t.a, t.n)) = some (0xFE, true) := by decide
/-- Vector A17: the pointer at 0xFF takes its high byte from 0x0000. -/
theorem test_lda_indirectX_pointer_wraps :
    (nextOf (step (withByte 0x1234 0x99 (withByte 0x0100 0x56 (withByte 0x0000 0x12 (withByte 0x00FF 0x34
      { machineAt 0x8000 [0xA1, 0xFE] with x := 0x01 })))))).map State.a = some 0x99 := by decide
/-- Vector A18 and R118's example. -/
theorem test_lda_indirectY :
    (nextOf (step (withByte 0x9000 0xFE (withByte 0x0014 0x90 (machineAt 0x8000 [0xB1, 0x13]))))).map
      (fun t => (t.a, t.n)) = some (0xFE, true) := by decide
/-- Vector A19: base 0xFFFF and Y 1 wrap to 0x0000, whose byte is 0xFF. -/
theorem test_lda_indirectY_wraps :
    (nextOf (step (withByte 0x0000 0xFF (withByte 0x00FF 0xFF
      { machineAt 0x8000 [0xB1, 0xFF] with y := 0x01 })))).map State.a = some 0xFF := by decide
/-- Vector J1. -/
theorem test_jmp :
    (nextOf (step { machineAt 0x8003 [0x4C, 0x08, 0x80] with n := true })).map (fun t => (t.pc, t.n, t.a, t.x)) =
      some (0x8008, true, 0x00, 0x00) := by decide
/-- Vector J2, the class test of C3. -/
theorem test_jmp_to_itself :
    (nextOf (step (machineAt 0x8000 [0x4C, 0x00, 0x80]))).map State.pc = some 0x8000 := by decide
/-- Vector X3. -/
theorem test_inx_wraps_without_carry :
    (nextOf (step { machineAt 0x8000 [0xE8] with x := 0xFF })).map (fun t => (t.x, t.z, t.n, t.c)) =
      some (0x00, true, false, false) := by decide
/-- Vector X5. -/
theorem test_inx_at_top_of_memory :
    (nextOf (step { machineAt 0xFFFF [0xE8] with x := 0x10 })).map (fun t => (t.x, t.pc)) = some (0x11, 0x0000) := by
  decide
/-- Vector T1. -/
theorem test_tax_zero :
    (nextOf (step { machineAt 0x8000 [0xAA] with x := 0x55 })).map (fun t => (t.x, t.z, t.n, t.a)) =
      some (0x00, true, false, 0x00) := by decide
/-- Vector T3: the flags are rewritten from the value. -/
theorem test_tax_rewrites_flags :
    (nextOf (step { machineAt 0x8000 [0xAA] with a := 0x42, x := 0x42, z := true })).map (fun t => (t.x, t.z)) =
      some (0x42, false) := by decide

/-! ### Faults, host operations -/

/-- Vector S3. -/
theorem test_unknown_opcode :
    nextOf (step (machineAt 0x8000 [0x02])) =
      some { machineAt 0x8000 [0x02] with engine := .faulted (.unknownOpcode 0x02 0x8000) } := by decide
/-- Vector S8: the lookup comes before the operand. -/
theorem test_unknown_opcode_before_word_access :
    (nextOf (step (machineAt 0xFFFE [0x02]))).map State.engine = some (.faulted (.unknownOpcode 0x02 0xFFFE)) := by decide
/-- Vector S1. -/
theorem test_step_in_halted :
    hostStep { State.reset with engine := .halted } = (.halts, { State.reset with engine := .halted }) := by decide
/-- Vectors M1 and M2. -/
theorem test_write16_little_endian :
    (hostWrite16 0xFFFE 0x1234 State.reset).2.mem = [(0xFFFE, 0x34), (0xFFFF, 0x12)] := by decide
/-- Vector M6. -/
theorem test_write_range_does_not_wrap :
    hostWriteRange 0xFFFF [0x11, 0x22] State.reset = (.fails (.rangeOutOfBounds 0xFFFF 2), State.reset) := by decide
/-- Vector R-1. -/
theorem test_reset_reads_vector :
    (hostReset (hostWrite16 0xFFFC 0x1234 State.reset).2).2.pc = 0x1234 := by decide
/-- Vector LD1. -/
theorem test_load_empty : (hostLoad [] State.reset).2.mem = [(0xFFFD, 0x80)] := by decide
/-- Vector A17 with `ZP_POINTER_WRAP` false. -/
theorem test_pointer_without_wrap :
    resolve ⟨.unwritten, false⟩ .indirectX 0x8000 (withByte 0x0100 0x56 (withByte 0x0000 0x12 (withByte 0x00FF 0x34
      { machineAt 0x8000 [0xA1, 0xFE] with x := 0x01 }))) = .ok (.addr 0x5634) := by rfl
/-- Vector A13: a mode no row uses. -/
theorem test_resolve_indirect :
    resolve Config.ofSpec .indirect 0x8000 (withByte 0x0121 0xBA (withByte 0x0120 0xFC
      (machineAt 0x8000 [0x00, 0x20, 0x01]))) = .ok (.addr 0xBAFC) := by rfl

/-! ### Witnesses: concrete states that meet the hypotheses of the obligations -/

theorem witness_DecodedBytesAreTheInstructionsEncoding : decode [0x4C, 0xFF, 0xFF, 0x01] = .ok (.jmpAbs 0xFFFF, [0x01]) := by
  rfl

theorem witness_StepRunsTheDecodedInstruction :
    (machineAt 0xFFFF [0xE8]).Executable ∧
      decode [byteAt (machineAt 0xFFFF [0xE8]) 65535, byteAt (machineAt 0xFFFF [0xE8]) 65536,
        byteAt (machineAt 0xFFFF [0xE8]) 65537] = .ok (.inx, [0x00, 0x00]) := ⟨by decide, by rfl⟩

theorem witness_UnmappedOpcodeFaults :
    (machineAt 0x8000 [0x02]).Executable ∧ byteAt (machineAt 0x8000 [0x02]) 0x8000 ∉ mappedOpcodes := by decide

theorem witness_StepTransitionsOfTheEngine :
    State.reset.engine = .idle ∧ (machineAt 0 []).engine = .running ∧
      ({ State.reset with engine := .halted } : State).engine = .halted ∧
      ({ State.reset with engine := .faulted .readBeforeReset } : State).engine = .faulted .readBeforeReset := by decide

/-- Both clauses, the second with a step that is taken. -/
theorem witness_OnlyAStepBeforeResetFaultsReadBeforeReset :
    ((construct Config.ofSpec).engine = .idle ∧ (construct Config.ofSpec).unwritten = true) ∧
      ((machineAt 0 []).engine = .running ∧ (machineAt 0 []).unwritten = false ∧
        (nextOf (step (machineAt 0 []))).isSome = true) := by decide

/-- One state for each clause: before reset, an unmapped byte at 0xFFFE, a word operand at 0xFFFE, and for the
resolver an opcode at 0xFFFE and a pointer at 0xFFFF. -/
theorem witness_FaultChecksComeInOrder :
    (construct Config.ofSpec).unwritten = true ∧
      (byteAt (machineAt 0xFFFE [0x02]) 0xFFFE ∉ mappedOpcodes ∧ (machineAt 0xFFFE [0x02]).unwritten = false) ∧
      (byteAt (machineAt 0xFFFE [0x4C]) 0xFFFE ∈ wordOperandOpcodes ∧ (machineAt 0xFFFE [0x4C]).pc = 0xFFFE) ∧
      wordAt (machineAt 0x8000 [0x00, 0xFF, 0xFF]) 0x8001 = 65535 := by decide

theorem witness_FaultingStepChangesOnlyTheEngine :
    (nextOf (step (machineAt 0x8000 [0x02]))).map State.engine = some (.faulted (.unknownOpcode 0x02 0x8000)) := by decide

/-- A step for each reason of the list. -/
theorem witness_FaultReasonsOfAStepAreExactlyTheList :
    (nextOf (step (construct Config.ofSpec))).map State.engine = some (.faulted .readBeforeReset) ∧
      (nextOf (step (machineAt 0x8000 [0x02]))).map State.engine = some (.faulted (.unknownOpcode 0x02 0x8000)) ∧
      (nextOf (step (machineAt 0xFFFE [0xB9]))).map State.engine = some (.faulted (.wordAccessAtTop 0xFFFF)) := by decide

/-- A row that is no jump, at the top of memory, and the jump. -/
theorem witness_StepAdvancesPCByTheRowsLength :
    (lookup (byteAt (machineAt 0xFFFF [0xA9]) 0xFFFF) = some ⟨.lda, 2, 2, .immediate⟩ ∧
        (nextOf (step (machineAt 0xFFFF [0xA9]))).map State.engine = some .running) ∧
      (lookup (byteAt (machineAt 0xFFFF [0x4C]) 0xFFFF) = some ⟨.jmp, 3, 3, .absolute⟩ ∧
        (nextOf (step (machineAt 0xFFFF [0x4C]))).map State.engine = some .running) := by decide

theorem witness_OnlyBreakHalts :
    (nextOf (step (machineAt 0xFFFF [0x00]))).map State.engine = some .halted ∧
      (nextOf (step (machineAt 0xFFFF [0xE8]))).map State.engine = some .running := by decide

theorem witness_HostWrittenInstructionIsFetched :
    (machineAt 0xFFFF []).mem.wf = true ∧ (machineAt 0xFFFF []).Executable := by decide

theorem witness_LoadImmediate :
    (machineAt 0xFFFF [0xA9]).Executable ∧ byteAt (machineAt 0xFFFF [0xA9]) 0xFFFF = 0xA9 := by decide

/-- Both sides of the operand's place, for LoadAbsolute, LoadAbsoluteX, LoadAbsoluteY and JumpAbsolute: the two
neighbours of 0xFFFE and 0xFFFE itself. -/
theorem witness_absolute_forms :
    (machineAt 0xFFFD [0xAD]).pc ≠ 0xFFFE#16 ∧ (machineAt 0xFFFF [0xAD]).pc ≠ 0xFFFE#16 ∧
      (machineAt 0xFFFE [0xAD]).pc = 0xFFFE#16 := by decide

/-- ResolveAbsoluteModes and ResolveIndirect: an opcode at 0xFFFE; elsewhere a pointer at 0xFFFF, and at 0xFFFE. -/
theorem witness_ResolveIndirect :
    (0xFFFD#16 ≠ 0xFFFE#16 ∧ wordAt (machineAt 0x8000 [0x00, 0xFF, 0xFF]) 0x8001 = 65535) ∧
      (0xFFFF#16 ≠ 0xFFFE#16 ∧ wordAt (machineAt 0x8000 [0x00, 0xFE, 0xFF]) 0x8001 ≠ 65535) := by decide

/-- A next state of each instruction's shape: a load, a jump, an increment, a break. -/
theorem witness_InstructionsWriteOnlyTheirRegisters :
    (nextOf (exec (.ldaImm 0x80) (machineAt 0 []))).isSome = true ∧
      (nextOf (exec (.jmpAbs 0x1234) (machineAt 0 []))).isSome = true ∧
      (nextOf (exec .inx (machineAt 0 []))).isSome = true ∧ (nextOf (exec .brk (machineAt 0 []))).isSome = true := by
  decide

/-- A step that is taken, for StepsNeverWriteMemoryYOrTheFiveFlags, ZAndNFollowTheRegisterWritten and
FlagsNeverInfluenceAStep. -/
theorem witness_step_is_taken : (nextOf (step (machineAt 0x8000 [0xA9, 0x80]))).isSome = true := by decide

theorem witness_EveryStepKeepsTheInvariant :
    (machineAt 0x8000 [0xA9, 0x80]).Inv ∧ (machineAt 0x8000 [0xA9, 0x80]).faultExplained = true ∧
      (nextOf (step (machineAt 0x8000 [0xA9, 0x80]))).isSome = true := by decide

theorem witness_EveryHostOperationKeepsTheInvariant : (machineAt 0x8000 [0xA9, 0x80]).Inv := by decide

theorem witness_WhatResetLeavesHoldsFromThenOn :
    ({ machineAt 0x8000 [0xA9, 0x80] with a := 0x80, n := true } : State).AfterReset := by decide

theorem witness_EveryReachableStateIsConsistent :
    Reaches (construct Config.ofSpec) (applyHostOp .reset (construct Config.ofSpec)).2 ∧
      (applyHostOp .reset (construct Config.ofSpec)).2.unwritten = false :=
  ⟨.op .reset (.refl _), by decide⟩

/-- Canonical memory, for WriteChangesTheByteItNames, WordRoundTrip (at both ends of its range) and, with a sequence
that just fits and one that does not, WriteRangeLandsOrFailsWhole. -/
theorem witness_memory_accessors :
    (machineAt 0x8000 [0xA9, 0x80]).mem.wf = true ∧ (0x0000#16).toNat ≤ 65534 ∧ (0xFFFE#16).toNat ≤ 65534 ∧
      (0xFFFF#16).toNat + [0x11#8].length ≤ 65536 ∧ (0xFFFF#16).toNat + [0x11#8, 0x22#8].length > 65536 := by decide

theorem witness_ConstructedEngine :
    Config.ofSpec.powerOnState = .unwritten ∧ (⟨.zero, true⟩ : Config).powerOnState = .zero := by decide

theorem witness_ResetLoadsTheVector :
    (∀ r, ({ State.reset with engine := .halted } : State).engine ≠ .faulted r) ∧
      ({ State.reset with engine := .faulted .readBeforeReset } : State).engine = .faulted .readBeforeReset :=
  ⟨by simp, rfl⟩

/-- Programs of the full capacity and of one byte more, for LoadPlacesProgramAndVector and
InterpretRunsTheLoadedProgram. -/
theorem witness_LoadPlacesProgramAndVector :
    State.reset.mem.wf = true ∧ (∀ r, State.reset.engine ≠ .faulted r) ∧
      (List.replicate 32768 0xEA#8).length ≤ 32768 ∧ (List.replicate 32769 0xEA#8).length > 32768 :=
  ⟨rfl, by simp [State.reset], Nat.le_of_eq List.length_replicate, by rw [List.length_replicate]; decide⟩

theorem witness_RunEndsAtABreakOrAFault :
    (machineAt 0x8000 [0xE8, 0x00]).Executable ∧ (hostRun 2 (machineAt 0x8000 [0xE8, 0x00])).1 = .halts ∧
      (hostRun 1 (machineAt 0x8000 [0x02])).1 = .faults (.unknownOpcode 0x02 0x8000) ∧
      (hostRun 1 (machineAt 0x8000 [0xE8, 0x00])).1 = .outOfFuel := by decide

theorem witness_FinishedRunsIgnoreExtraFuel :
    (hostRun 1 (machineAt 0x8000 [0x00])).1 = .halts ∧ (.halts : Reply) ≠ .outOfFuel := by decide

theorem witness_SelfJumpRunsForever :
    (machineAt 0x8000 [0x4C, 0x00, 0x80]).Executable ∧ byteAt (machineAt 0x8000 [0x4C, 0x00, 0x80]) 0x8000 = 0x4C ∧
      (machineAt 0x8000 [0x4C, 0x00, 0x80]).pc ≠ 0xFFFE#16 ∧
      wordAt (machineAt 0x8000 [0x4C, 0x00, 0x80]) 0x8001 = 0x8000 := by decide

/-- A faulted and a halted engine, for FaultedIsAbsorbing and OnlyResetLeavesHalted. -/
theorem witness_stopped_engines :
    (faultedWith (.unknownOpcode 0x02 0x8000) (machineAt 0x8000 [0x02])).engine = .faulted (.unknownOpcode 0x02 0x8000) ∧
      ({ machineAt 0x8000 [] with engine := .halted } : State).engine = .halted := by decide

/-- An operation for each failure. -/
theorem witness_FailingHostOperationsChangeNothing :
    (applyHostOp (.read16 0xFFFF) State.reset).1 = .fails (.wordAccessAtTop 0xFFFF) ∧
      (applyHostOp (.write16 0xFFFF 0xABCD) State.reset).1 = .fails (.wordAccessAtTop 0xFFFF) ∧
      (applyHostOp (.writeRange 0xFFFF [0x11, 0x22]) State.reset).1 = .fails (.rangeOutOfBounds 0xFFFF 2) ∧
      (applyHostOp (.load (List.replicate 32769 0xEA#8)) State.reset).1 = .fails (.programTooLarge 32769) := by
  refine ⟨by decide, by decide, by decide, ?_⟩
  have h : (List.replicate 32769 0xEA#8).length > romCapacity := by rw [List.length_replicate]; decide
  rw [applyHostOp, hostLoad_eq _ (by simp [State.reset]), if_pos h, List.length_replicate]

/-- Two engines, for EnginesAreIndependent. -/
theorem witness_EnginesAreIndependent : (1 : Nat) ≠ 0 ∧ [State.reset, State.reset][1]? = some State.reset := by decide

end Sys2Proof.Tests
end

section
/-! What `step` answers in each control state (spec/40_execution_cycle.md R77), and that no state is stuck. -/

namespace Sys2Proof.Machine

theorem step_halted {s : State} (he : s.engine = .halted) : step s = .next s := by
  simp only [step, he]

theorem step_faulted {s : State} {r : Fault} (he : s.engine = .faulted r) : step s = .fault r := by
  simp only [step, he]

/-- Before the first reset and on an unmapped byte the next state is the one that records the fault (D8);
otherwise it is the instruction's. -/
theorem step_next_of_idle_or_running {s : State} (he : s.engine = .idle ∨ s.engine = .running) :
    ∃ t, step s = .next t := by
  cases hu : s.unwritten with
  | true => exact ⟨_, step_unwritten he hu⟩
  | false =>
    rw [step_executable ⟨he, hu⟩]
    cases fetchInstr s with
    | none => exact ⟨_, rfl⟩
    | some i => exact exec_next i s

/-- Settles O14, by cases on the control state. -/
theorem noStateIsStuck : Obligations.NoStateIsStuck := by
  intro s
  cases he : s.engine with
  | idle => exact .inl (step_next_of_idle_or_running (.inl he))
  | running => exact .inl (step_next_of_idle_or_running (.inr he))
  | halted => exact .inl ⟨s, step_halted he⟩
  | faulted r => exact .inr ⟨r, rfl, step_faulted he⟩

end Sys2Proof.Machine
end

section
/-! The byte accessors of the host: what a read sees after a write, and what a write leaves unchanged
(spec/20_memory.md R38, R39). -/

namespace Sys2Proof.Machine

/-- Outside memory a byte write changes nothing. -/
theorem writeByte_frame (q : Word) (w : Byte) (s : State) : { writeByte q w s with mem := s.mem } = s := rfl

/-- A host read after a host write sees the written byte at its address and the old byte elsewhere, and keeps the
state. -/
theorem hostRead_hostWrite {s : State} (h : s.mem.wf = true) (p q : Word) (w : Byte) :
    hostRead q (hostWrite p w s).2 = (.byte (if q = p then w else readByte s q), (hostWrite p w s).2) := by
  rw [hostRead, hostWrite, readByte_writeByte h]

/-- Settles O45, from the read after a write and the frame of a write. -/
theorem writeChangesTheByteItNames : Obligations.WriteChangesTheByteItNames := by
  intro s p q w hwf
  exact ⟨rfl, hostRead_hostWrite hwf p q w, writeByte_frame p w s⟩

end Sys2Proof.Machine
end

section
/-! The fetch of a whole instruction is the lookup of its row and the row's maker on the operand bytes; the meaning
of that instruction is the spec's pseudocode run on the row (spec/40_execution_cycle.md R76 to R85). -/

namespace Sys2Proof.Machine

variable {s : State} {cfg : Config} {d : Descriptor}

theorem mem_catalog_of_rowOf {op : Byte} {r : Row} (h : rowOf op = some r) : r ∈ catalog :=
  List.mem_of_find?_eq_some h

/-- A maker looks only at the operand bytes of its row's format, so it may be given both bytes after the opcode. -/
theorem decode_of_rowOf {op l h : Byte} {r : Row} (hr : rowOf op = some r) :
    ∃ rest, decode [op, l, h] = .ok (r.make l h, rest) := by
  have maker_ignores : ∀ r ∈ catalog, ∀ l h : Byte,
      (r.descriptor.mode.format = .impl → r.make l h = r.make 0 0) ∧
        (r.descriptor.mode.format = .op8 → r.make l h = r.make l 0) := by
    simp [catalog, Mode.format]
  obtain ⟨himpl, hop8⟩ := maker_ignores r (mem_catalog_of_rowOf hr) l h
  cases hf : r.descriptor.mode.format with
  | impl => exact ⟨[l, h], by simp only [decode, hr, hf, himpl hf]⟩
  | op8 => exact ⟨[h], by simp only [decode, hr, hf, hop8 hf]⟩
  | op16 => exact ⟨[], by simp only [decode, hr, hf]⟩

theorem fetchInstr_of_rowOf {r : Row} (hr : rowOf (readByte s s.pc) = some r) :
    fetchInstr s = some (r.make (readByte s (s.pc + 1)) (readByte s (s.pc + 2))) := by
  obtain ⟨rest, hd⟩ := decode_of_rowOf hr
  exact fetchInstr_of_decode hd

/-! ### The cycle in each case of its checks -/

theorem cycle_halted (he : s.engine = .halted) : cycle cfg s = .next s := by
  simp only [cycle, he]

theorem cycle_faulted {r : Fault} (he : s.engine = .faulted r) : cycle cfg s = .fault r := by
  simp only [cycle, he]

theorem cycle_unwritten (he : s.engine = .idle ∨ s.engine = .running) (hu : s.unwritten = true) :
    cycle cfg s = raise .readBeforeReset s := by
  rcases he with he | he <;> simp only [cycle, he, hu, if_true]

theorem cycle_of_lookup_none (hx : s.Executable) (hl : lookup (readByte s s.pc) = none) :
    cycle cfg s = raise (.unknownOpcode (readByte s s.pc) s.pc) s := by
  obtain ⟨he | he, hu⟩ := hx <;> simp [cycle, he, hu, hl]

theorem cycle_of_lookup_some (hx : s.Executable) (hl : lookup (readByte s s.pc) = some d) :
    cycle cfg s = cycleWith cfg d s.pc s := by
  obtain ⟨he | he, hu⟩ := hx <;> simp [cycle, he, hu, hl]

/-! ### The meaning of an instruction is the cycle on its row -/

/-- The load rows: the resolved address decides between the fault and the loaded byte. -/
theorem cycleWith_lda (hm : d.mnemonic = .lda) {ea : Except Fault Word}
    (hr : resolve cfg d.mode s.pc s = ea.map .addr) : cycleWith cfg d s.pc s = loadFrom d.length ea s := by
  rw [cycleWith, hr, hm]
  cases ea with
  | error r => rfl
  | ok q => rfl

/-- The jump's row: the PC advance is skipped, so PC stays at the operand (spec/90_conflicts.md C3). -/
theorem cycleWith_jmp (hm : d.mnemonic = .jmp) (hmode : d.mode = .absolute) :
    cycleWith cfg d s.pc s = execJmpAbs (wordOf (readByte s (s.pc + 2)) (readByte s (s.pc + 1))) s := by
  rw [cycleWith, hm, hmode, resolve, execJmpAbs]
  cases eaAbsolute s.pc (wordOf (readByte s (s.pc + 2)) (readByte s (s.pc + 1))) with
  | error r => rfl
  | ok q => rfl

/-- Row by row: the resolver, the handler, the PC advance and the control state of the row are `exec` of the
instruction with the operand bytes at PC. -/
theorem cycleWith_eq_exec_make (s : State) : ∀ r ∈ catalog,
    cycleWith Config.ofSpec r.descriptor s.pc s =
      exec (r.make (readByte s (s.pc + 1)) (readByte s (s.pc + 2))) s := by
  simp only [catalog, List.forall_mem_cons]
  refine ⟨?brk, ?ldaImm, ?ldaZp, ?ldaZpX, ?ldaAbs, ?ldaAbsX, ?ldaAbsY, ?ldaIndX, ?ldaIndY, ?jmpAbs, ?inx, ?tax,
    List.forall_mem_nil _⟩
  case brk => rfl
  case ldaImm => exact cycleWith_lda (ea := .ok (eaImmediate s.pc)) rfl rfl
  case ldaZp => exact cycleWith_lda (ea := .ok (eaZeroPage _)) rfl rfl
  case ldaZpX => exact cycleWith_lda (ea := .ok (eaZeroPageX _ s)) rfl rfl
  case ldaAbs => exact cycleWith_lda (ea := eaAbsolute s.pc _) rfl rfl
  case ldaAbsX => exact cycleWith_lda (ea := eaAbsoluteX s.pc _ s) rfl rfl
  case ldaAbsY => exact cycleWith_lda (ea := eaAbsoluteY s.pc _ s) rfl rfl
  case ldaIndX => exact cycleWith_lda (ea := .ok (eaIndirectX Config.ofSpec _ s)) rfl rfl
  case ldaIndY => exact cycleWith_lda (ea := .ok (eaIndirectY Config.ofSpec _ s)) rfl rfl
  case jmpAbs => exact cycleWith_jmp rfl rfl
  case inx => rfl
  case tax => rfl

theorem step_eq_cycle_of_executable (hx : s.Executable) : step s = cycle Config.ofSpec s := by
  rw [step_executable hx]
  cases hr : rowOf (readByte s s.pc) with
  | none => rw [fetchInstr_of_rowOf_none hr, cycle_of_lookup_none hx (by rw [lookup, hr]; rfl)]
  | some r =>
    rw [fetchInstr_of_rowOf hr, cycle_of_lookup_some hx (by rw [lookup, hr]; rfl)]
    exact (cycleWith_eq_exec_make s r (mem_catalog_of_rowOf hr)).symm

theorem step_eq_cycle_of_idle_or_running (he : s.engine = .idle ∨ s.engine = .running) :
    step s = cycle Config.ofSpec s := by
  cases hu : s.unwritten with
  | true => rw [step_unwritten he hu, cycle_unwritten he hu]
  | false => exact step_eq_cycle_of_executable ⟨he, hu⟩

/-- Settles O7, by cases on the control state. -/
theorem stepIsTheFetchResolveExecuteCycle : Obligations.StepIsTheFetchResolveExecuteCycle := by
  intro s
  cases he : s.engine with
  | idle => exact step_eq_cycle_of_idle_or_running (.inl he)
  | running => exact step_eq_cycle_of_idle_or_running (.inr he)
  | halted => rw [step_halted he, cycle_halted he]
  | faulted r => rw [step_faulted he, cycle_faulted he]

end Sys2Proof.Machine
end

section
/-! A step that faults writes the control state only (spec/40_execution_cycle.md R89, spec/60_exceptions.md R122). -/

namespace Sys2Proof.Machine

open Sys2Proof.Claims

/-- The host gets the signal of the state a step leaves. -/
theorem hostStep_of_next {s t : State} (h : step s = .next t) : hostStep s = (signalOf t.engine, t) := by
  rw [hostStep, h]

theorem eq_faultedWith_of_takeFault {s : State} {r q : Fault} (h : (takeFault q s).engine = .faulted r) :
    takeFault q s = faultedWith r s := by
  cases h
  rfl

/-- Every effect of an instruction but the trap leaves Running or Halted. -/
theorem Effect.eq_faultedWith {i : Instr} {s t : State} {r : Fault} (h : Effect i s t) (he : t.engine = .faulted r) :
    t = faultedWith r s := by
  cases h with
  | trap _ _ => exact eq_faultedWith_of_takeFault he
  | halt _ | load _ _ | jump _ _ _ | increment _ | transfer _ => cases he

theorem eq_faultedWith_of_step {s t : State} {r : Fault} (h : step s = .next t) (he : t.engine = .faulted r) :
    t = faultedWith r s := by
  rcases step_cases h with ⟨hhalted, rfl⟩ | ⟨-, -, rfl⟩ | ⟨-, -, rfl⟩ | ⟨-, i, -, -, heffect⟩
  · cases hhalted.symm.trans he
  · exact eq_faultedWith_of_takeFault he
  · exact eq_faultedWith_of_takeFault he
  · exact heffect.eq_faultedWith he

/-- Settles O12, from what a faulting step leaves and the signal of that state. -/
theorem faultingStepChangesOnlyTheEngine : Obligations.FaultingStepChangesOnlyTheEngine := by
  intro s t r h he
  refine ⟨eq_faultedWith_of_step h he, ?_⟩
  rw [hostStep_of_next h, he, signalOf]

end Sys2Proof.Machine
end

section
/-! The PC advance (spec/40_execution_cycle.md R82, R83), read off the spec's cycle, which the step is. -/

namespace Sys2Proof.Machine

open Sys2Proof.Claims

variable {s t : State} {cfg : Config} {d : Descriptor} {pc0 : Word}

theorem readByte_add (s : State) (p : Word) (k : Nat) :
    readByte s (p + BitVec.ofNat 16 k) = byteAt s (p.toNat + k) := by
  rw [word_add, readByte, BitVec.toNat_ofNat, byteAt]

theorem readByte_pc (s : State) : readByte s s.pc = byteAt s s.pc.toNat := by
  simpa using readByte_add s s.pc 0

/-- The 16-bit operand is the little-endian word after the opcode (spec/30_encoding.md R67). -/
theorem operand_toNat (s : State) (pc0 : Word) :
    (wordOf (readByte s (pc0 + 2)) (readByte s (pc0 + 1))).toNat = wordAt s (pc0.toNat + 1) := by
  have hlow : readByte s (pc0 + 1) = byteAt s (pc0.toNat + 1) := readByte_add s pc0 1
  have hhigh : readByte s (pc0 + 2) = byteAt s (pc0.toNat + 1 + 1) := readByte_add s pc0 2
  rw [wordOf_toNat, hlow, hhigh, wordAt]

/-- Everything the cycle can do after the lookup. -/
theorem cycleWith_cases (h : cycleWith cfg d pc0 s = .next t) :
    (∃ r, resolve cfg d.mode pc0 s = .error r ∧ t = takeFault r s) ∨
      ∃ ea u, resolve cfg d.mode pc0 s = .ok ea ∧ handler d.mnemonic ea s = .ok u ∧
        t = setEngine (Mnemonic.engineAfter d.mnemonic)
          (if Mnemonic.isControlTransfer d.mnemonic then u else setPC (pc0 + BitVec.ofNat 16 d.length) u) := by
  cases hr : resolve cfg d.mode pc0 s with
  | error r =>
    simp only [cycleWith, hr] at h
    cases h
    exact .inl ⟨r, rfl, rfl⟩
  | ok ea =>
    cases hh : handler d.mnemonic ea s with
    | error q =>
      simp only [cycleWith, hr, hh] at h
      cases h
    | ok u =>
      simp only [cycleWith, hr, hh] at h
      cases h
      exact .inr ⟨ea, u, rfl, hh, rfl⟩

theorem isControlTransfer_eq_false {m : Mnemonic} (h : m ≠ .jmp) : Mnemonic.isControlTransfer m = false := by
  cases m with
  | jmp => exact absurd rfl h
  | brk | lda | inx | tax => rfl

/-- The jump's handler takes an address and writes it to PC. -/
theorem handler_jmp_cases {ea : EA} {u : State} (h : handler .jmp ea s = .ok u) :
    ∃ target, ea = .addr target ∧ u = setPC target s := by
  cases ea with
  | none => cases h
  | addr target => cases h; exact ⟨target, rfl, rfl⟩

/-- An absolute address that is resolved is the operand (spec/41_address_resolver.md R96). -/
theorem resolve_absolute_addr {target : Word} (h : resolve cfg .absolute pc0 s = .ok (.addr target)) :
    target = wordOf (readByte s (pc0 + 2)) (readByte s (pc0 + 1)) := by
  simp only [resolve, eaAbsolute] at h
  rcases operandWord_cases pc0 (wordOf (readByte s (pc0 + 2)) (readByte s (pc0 + 1))) with ⟨-, ho⟩ | ⟨-, ho⟩
  · rw [ho] at h
    cases h
  · rw [ho] at h
    cases h
    rfl

/-- The catalog's only jump is absolute (spec/30_encoding.md R63). -/
theorem mode_of_lookup_jmp {op : Byte} (hl : lookup op = some d) (hm : d.mnemonic = .jmp) : d.mode = .absolute := by
  have jump_row : ∀ r ∈ catalog, r.descriptor.mnemonic = .jmp → r.descriptor.mode = .absolute := by decide
  obtain ⟨r, hr, rfl⟩ := Option.map_eq_some_iff.mp hl
  exact jump_row r (mem_catalog_of_rowOf hr) hm

/-- Settles O15: the cycle's class test decides between the advance and the jump's target. -/
theorem stepAdvancesPCByTheRowsLength : Obligations.StepAdvancesPCByTheRowsLength := by
  intro s t d hx hl h hnofault
  rw [← readByte_pc] at hl
  rw [step_eq_cycle_of_executable hx, cycle_of_lookup_some hx hl] at h
  rcases cycleWith_cases h with ⟨r, -, rfl⟩ | ⟨ea, u, hresolve, hhandler, rfl⟩
  · exact absurd rfl (hnofault r)
  refine ⟨fun hm => ?advance, fun hm => ?jump⟩
  case advance => simp [isControlTransfer_eq_false hm, word_add]
  case jump =>
    rw [mode_of_lookup_jmp hl hm] at hresolve
    rw [hm] at hhandler
    obtain ⟨target, rfl, rfl⟩ := handler_jmp_cases hhandler
    rw [hm, resolve_absolute_addr hresolve, ← operand_toNat]
    rfl

end Sys2Proof.Machine
end

section
/-! The address resolver in the modes that read at most one operand byte (spec/41_address_resolver.md R92 to R95,
R104). -/

namespace Sys2Proof.Machine

open Sys2Proof.Claims

/-- The 8-bit operand is the byte after the opcode, at address 0 for an opcode at the top of memory (D7). -/
theorem readByte_add_one (s : State) (p : Word) : readByte s (p + 1) = byteAt s (p.toNat + 1) :=
  readByte_add s p 1

theorem zext16_eq_ofNat (b : Byte) : zext16 b = BitVec.ofNat 16 b.toNat := by
  rw [← zext16_toNat, BitVec.ofNat_toNat, BitVec.setWidth_eq]

/-- A sum of bytes is taken modulo 256 before it becomes an address, so it stays in page zero. -/
theorem zext16_add (b w : Byte) : zext16 (b + w) = BitVec.ofNat 16 ((b.toNat + w.toNat) % 256) := by
  rw [zext16_eq_ofNat, BitVec.toNat_add]

theorem eaImmediate_eq_ofNat (pc0 : Word) : eaImmediate pc0 = BitVec.ofNat 16 ((pc0.toNat + 1) % 65536) :=
  BitVec.eq_of_toNat_eq (by simp [eaImmediate, BitVec.toNat_add])

/-- Settles O32, mode by mode: the operand byte, and the zero-extended sum with the index. -/
theorem resolveByteModes : Obligations.ResolveByteModes := by
  intro cfg pc0 s
  refine ⟨?implicit, ?immediate, ?zeroPage, ?zeroPageX, ?zeroPageY⟩
  case implicit => rfl
  case immediate => rw [resolve, eaImmediate_eq_ofNat]
  case zeroPage => rw [resolve, eaZeroPage, zext16_eq_ofNat, readByte_add_one]
  case zeroPageX => rw [resolve, eaZeroPageX, zext16_add, readByte_add_one]
  case zeroPageY => rw [resolve, eaZeroPageY, zext16_add, readByte_add_one]

end Sys2Proof.Machine
end

section
/-! The load handler's flag helpers (spec/43_load.md R108, R109) and the load of the operand byte (R111). -/

namespace Sys2Proof.Machine

open Sys2Proof.Claims

/-- `set_zero_flag` as a comparison of numbers, with its frame. -/
theorem setZeroFlag_eq (w : Byte) (s : State) : setZeroFlag w s = { s with z := decide (w.toNat = 0) } := by
  rw [setZeroFlag, assignFlag, beq_zero]

/-- `set_negative_flag` as a comparison of numbers, with its frame. -/
theorem setNegativeFlag_eq (w : Byte) (s : State) :
    setNegativeFlag w s = { s with n := decide (128 ≤ w.toNat) } := by
  rw [setNegativeFlag, assignFlag, getLsbD_seven]

/-- A byte of 128 or more is one whose leading bit, the quotient by 128, is 1. -/
theorem le_toNat_iff_div_eq_one (w : Byte) : 128 ≤ w.toNat ↔ w.toNat / 128 = 1 := by
  have := w.isLt
  omega

/-- Settles O30: bit 7 of a byte is its quotient by 128. -/
theorem flagHelpersWriteOneFlag : Obligations.FlagHelpersWriteOneFlag := by
  intro w s
  refine ⟨setZeroFlag_eq w s, ?_⟩
  simp only [setNegativeFlag_eq, le_toNat_iff_div_eq_one]

/-- The handler of every LDA form, its PC advance and control state are the whole next state of a load. -/
theorem finish_loadAccumulator (length : Nat) (w : Byte) (s : State) :
    finish length (loadAccumulator w s) = loadedA w length s := by
  rw [loadAccumulator, setNegativeFlag_eq, setZeroFlag_eq, finish_eq, word_add]
  rfl

theorem exec_ldaImm (w : Byte) (s : State) : exec (.ldaImm w) s = .next (loadedA w 2 s) :=
  congrArg Host.Outcome.next (finish_loadAccumulator 2 w s)

/-- The instruction fetched where 0xA9 stands takes the byte after it, at address 0 for an opcode at the top of
memory (D7). -/
theorem fetchInstr_ldaImm {s : State} (h : byteAt s s.pc.toNat = 0xA9) :
    fetchInstr s = some (.ldaImm (byteAt s (s.pc.toNat + 1))) := by
  rw [← readByte_add_one]
  exact fetchInstr_of_rowOf (r := ⟨0xA9, ⟨.lda, 2, 2, .immediate⟩, fun l _ => .ldaImm l⟩)
    (by rw [readByte_pc, h]; rfl)

/-- Settles O19: the load's next state, and what a step fetches where 0xA9 stands. -/
theorem loadImmediate : Obligations.LoadImmediate := by
  refine ⟨fun w s => ⟨rfl, exec_ldaImm w s⟩, fun s hx hop => ?_⟩
  rw [step_executable hx, fetchInstr_ldaImm hop]
  exact exec_ldaImm _ s

end Sys2Proof.Machine
end

section
/-! The register family writes X, its flags, PC and the control state (spec/45_register.md). -/

namespace Sys2Proof.Machine

open Sys2Proof.Claims

/-- The write of X that INX and TAX share, its flags, PC advance and control state are the whole next state of a
one-byte instruction that writes X. -/
theorem finish_loadX (w : Byte) (s : State) : finish 1 (loadX w s) = loadedX w s := by
  rw [loadX, setNegativeFlag_eq, setZeroFlag_eq, finish_eq, word_add]
  rfl

theorem exec_tax (s : State) : exec .tax s = .next (loadedX s.a s) :=
  congrArg Host.Outcome.next (finish_loadX s.a s)

/-- Settles O29: the shared write of X, with A as the byte. -/
theorem transferAToX : Obligations.TransferAToX := fun s => ⟨rfl, exec_tax s⟩

end Sys2Proof.Machine
end

section
/-! A host operation fails only in its own check, and then the state is as before (spec/60_exceptions.md R127). -/

namespace Sys2Proof.Machine

/-- A step answers a signal, a fault or a refusal, never a failure of a host operation. -/
theorem hostStep_ne_fails (s : State) (f : Failure) : (hostStep s).1 ≠ .fails f := by
  rcases hostStep_cases s with ⟨t, -, ht⟩ | ⟨r, -, hr⟩ | ⟨q, -, hq⟩
  · rw [ht]
    cases t.engine <;> exact Reply.noConfusion
  · simp [hr]
  · simp [hq]

/-- A run goes on after a step that continues, and answers any other step's reply. -/
theorem hostRun_succ_cases (fuel : Nat) (s : State) :
    hostRun (fuel + 1) s = hostRun fuel (hostStep s).2 ∨ hostRun (fuel + 1) s = hostStep s := by
  rw [hostRun]
  split
  · next h => exact .inl (by rw [h])
  · exact .inr rfl

theorem hostRun_ne_fails (fuel : Nat) (s : State) (f : Failure) : (hostRun fuel s).1 ≠ .fails f := by
  induction fuel generalizing s with
  | zero => exact Reply.noConfusion
  | succ fuel ih =>
    rcases hostRun_succ_cases fuel s with h | h <;> rw [h]
    · exact ih _
    · exact hostStep_ne_fails s f

/-- `interpret` runs what it has loaded, or answers what its load answers (D22). -/
theorem hostInterpret_cases (fuel : Nat) (program : List Byte) (s : State) :
    (∃ t, hostLoad program s = (.done, t) ∧ hostInterpret fuel program s = hostRun fuel (hostReset t).2) ∨
      hostInterpret fuel program s = hostLoad program s := by
  rw [hostInterpret]
  split
  · next t h => exact .inl ⟨t, h, rfl⟩
  · exact .inr rfl

variable {s : State} {f : Failure}

theorem hostReset_ne_fails : (hostReset s).1 ≠ .fails f := by
  rcases faulted_or_not s with ⟨r, h⟩ | h
  · simp [hostReset_faulted h]
  · simp [hostReset_eq h]

/-! ### When an operation fails -/

theorem hostRead16_fails_iff {q : Word} :
    (hostRead16 q s).1 = .fails f ↔ q = 0xFFFF ∧ f = .wordAccessAtTop 0xFFFF := by
  rw [hostRead16, topAddress]
  split
  · next h => simp [h, eq_comm]
  · next h => exact iff_of_false Reply.noConfusion (fun hq => h hq.1)

theorem hostWrite16_fails_iff {q w : Word} :
    (hostWrite16 q w s).1 = .fails f ↔ q = 0xFFFF ∧ f = .wordAccessAtTop 0xFFFF := by
  rw [hostWrite16, topAddress]
  split
  · next h => simp [h, eq_comm]
  · next h => exact iff_of_false Reply.noConfusion (fun hq => h hq.1)

theorem hostWriteRange_fails_iff {start : Word} {bytes : List Byte} :
    (hostWriteRange start bytes s).1 = .fails f ↔
      start.toNat + bytes.length > 65536 ∧ f = .rangeOutOfBounds start bytes.length := by
  rw [hostWriteRange]
  split
  · next h => simp [h, eq_comm]
  · next h => simp [h]

theorem hostLoad_fails_iff {program : List Byte} :
    (hostLoad program s).1 = .fails f ↔
      program.length > 32768 ∧ (∀ r, s.engine ≠ .faulted r) ∧ f = .programTooLarge program.length := by
  rcases faulted_or_not s with ⟨r, h⟩ | h
  · simp [hostLoad_faulted program h, h]
  · rw [hostLoad_eq program h, romCapacity]
    split
    · next hlen => simp [hlen, h, eq_comm]
    · next hlen => simp [hlen]

theorem hostInterpret_fails_iff {fuel : Nat} {program : List Byte} :
    (hostInterpret fuel program s).1 = .fails f ↔ (hostLoad program s).1 = .fails f := by
  rcases hostInterpret_cases fuel program s with ⟨t, hload, h⟩ | h
  · simp [hload, h, hostRun_ne_fails]
  · rw [h]

/-! ### What a failing operation leaves -/

theorem hostLoad_frame_of_fails {program : List Byte} (hf : (hostLoad program s).1 = .fails f) :
    (hostLoad program s).2 = s := by
  obtain ⟨hlen, hengine, -⟩ := hostLoad_fails_iff.mp hf
  rw [hostLoad_eq program hengine, romCapacity, if_pos hlen]

theorem hostInterpret_frame_of_fails {fuel : Nat} {program : List Byte}
    (hf : (hostInterpret fuel program s).1 = .fails f) : (hostInterpret fuel program s).2 = s := by
  rcases hostInterpret_cases fuel program s with ⟨t, -, h⟩ | h <;> rw [h] at hf ⊢
  · exact absurd hf (hostRun_ne_fails fuel _ f)
  · exact hostLoad_frame_of_fails hf

theorem applyHostOp_frame_of_fails {op : HostOp} (hf : (applyHostOp op s).1 = .fails f) :
    (applyHostOp op s).2 = s := by
  cases op with
  | read q => rfl
  | write q w => cases hf
  | read16 q =>
    obtain ⟨rfl, -⟩ := hostRead16_fails_iff.mp hf
    rfl
  | write16 q w =>
    obtain ⟨rfl, -⟩ := hostWrite16_fails_iff.mp hf
    rfl
  | writeRange start bytes =>
    obtain ⟨hlen, -⟩ := hostWriteRange_fails_iff.mp hf
    rw [applyHostOp, hostWriteRange, if_pos hlen]
  | load program => exact hostLoad_frame_of_fails hf
  | reset => exact absurd hf hostReset_ne_fails
  | step => exact absurd hf (hostStep_ne_fails s f)
  | run fuel => exact absurd hf (hostRun_ne_fails fuel s f)
  | interpret fuel program => exact hostInterpret_frame_of_fails hf

/-- Settles O59, operation by operation: each one's check, and the frame of a failure. -/
theorem failingHostOperationsChangeNothing : Obligations.FailingHostOperationsChangeNothing := by
  intro op s f
  refine ⟨?_, applyHostOp_frame_of_fails⟩
  cases op with
  | read q => simp [applyHostOp, hostRead]
  | write q w => simp [applyHostOp, hostWrite]
  | read16 q => simp [applyHostOp, hostRead16_fails_iff]
  | write16 q w => simp [applyHostOp, hostWrite16_fails_iff]
  | writeRange start bytes => simp [applyHostOp, hostWriteRange_fails_iff]
  | load program => simp [applyHostOp, hostLoad_fails_iff]
  | reset => simp [applyHostOp, hostReset_ne_fails]
  | step => simp [applyHostOp, hostStep_ne_fails]
  | run fuel => simp [applyHostOp, hostRun_ne_fails]
  | interpret fuel program => simp [applyHostOp, hostInterpret_fails_iff, hostLoad_fails_iff]

end Sys2Proof.Machine
end

section
/-! An unmapped opcode byte faults (spec/60_exceptions.md R124). -/

namespace Sys2Proof.Machine

open Sys2Proof.Claims

theorem rowOf_eq_none_of_not_mem {op : Byte} (h : op ∉ mappedOpcodes) : rowOf op = none :=
  (rowOf_eq_none_or op).resolve_right (by simpa [mappedOpcodes] using h)

/-- The step from an unmapped byte records it with its address and writes the control state only. -/
theorem step_unmapped {s : State} (hx : s.Executable) (h : byteAt s s.pc.toNat ∉ mappedOpcodes) :
    step s = .next (faultedWith (.unknownOpcode (byteAt s s.pc.toNat) s.pc) s) := by
  rw [← readByte_pc] at h ⊢
  rw [step_executable hx, fetchInstr_of_rowOf_none (rowOf_eq_none_of_not_mem h)]
  rfl

/-- Settles O8: the faulted next state and its signal. -/
theorem unmappedOpcodeFaults : Obligations.UnmappedOpcodeFaults := by
  intro s hx h
  have hstep := step_unmapped hx h
  refine ⟨hstep, ?_⟩
  rw [hostStep_of_next hstep, faultedWith, signalOf]

end Sys2Proof.Machine
end

section
/-! Several engines: the operation on one is the operation on a single engine at its place
(spec/60_exceptions.md R138). -/

namespace Sys2Proof.Machine

variable {k : Nat} {engines : List State}

theorem applyToEngine_of_none (op : HostOp) (h : engines[k]? = none) :
    applyToEngine k op engines = (none, engines) := by
  rw [applyToEngine, h]

theorem applyToEngine_of_some (op : HostOp) {s : State} (h : engines[k]? = some s) :
    applyToEngine k op engines = (some (applyHostOp op s).1, engines.set k (applyHostOp op s).2) := by
  rw [applyToEngine, h]

/-- Settles O60, by whether there is an engine at the place. -/
theorem enginesAreIndependent : Obligations.EnginesAreIndependent := by
  intro k op engines
  cases h : engines[k]? with
  | none =>
    rw [applyToEngine_of_none op h]
    exact ⟨rfl, h, rfl, fun _ _ => rfl⟩
  | some s =>
    obtain ⟨hk, -⟩ := List.getElem?_eq_some_iff.mp h
    rw [applyToEngine_of_some op h]
    exact ⟨List.length_set, List.getElem?_set_self hk, rfl, fun j hj => List.getElem?_set_ne hj.symm⟩

end Sys2Proof.Machine
end

section
/-! Reset loads PC from the reset vector, and again (spec/70_reset_and_hazards.md R141, R142). -/

namespace Sys2Proof.Machine

open Sys2Proof.Claims

variable {s : State}

/-- The two bytes from `p` up, as the model joins them, are the little-endian word at `p`. -/
theorem wordOf_readByte (s : State) (p : Word) :
    wordOf (readByte s (p + 1)) (readByte s p) = BitVec.ofNat 16 (wordAt s p.toNat) := by
  have hlow : readByte s p = byteAt s p.toNat := by simpa using readByte_add s p 0
  rw [wordAt, ← readByte_add_one, ← hlow, ← wordOf_toNat, BitVec.ofNat_toNat, BitVec.setWidth_eq]

theorem hostReset_eq_wordAt (h : ∀ r, s.engine ≠ .faulted r) :
    hostReset s = (.done, { State.reset with pc := BitVec.ofNat 16 (wordAt s 65532), mem := s.mem }) := by
  rw [hostReset_eq h, wordOf_readByte]
  rfl

/-- A reset reads memory only, which it keeps, and leaves the engine Idle, so a second one answers the same. -/
theorem hostReset_hostReset (h : ∀ r, s.engine ≠ .faulted r) : hostReset (hostReset s).2 = hostReset s := by
  rw [hostReset_eq h]
  exact hostReset_eq (fun _ => Engine.noConfusion)

/-- Settles O50, by whether the engine is Faulted. -/
theorem resetLoadsTheVector : Obligations.ResetLoadsTheVector := fun _ =>
  ⟨fun h => ⟨hostReset_eq_wordAt h, hostReset_hostReset h⟩, fun _ => hostReset_faulted⟩

end Sys2Proof.Machine
end

section
/-! Encoding and decoding: one statement about the encoding of each row's instruction, and the round trips in both
directions (spec/30_encoding.md sections 1 to 5). -/

namespace Sys2Proof

open Sys2Proof.Claims

/-- Encoding then decoding, operand and trailing bytes included; a 16-bit operand is split and joined again. -/
theorem decode_encode_append (i : Instr) (rest : List Byte) : decode (encode i ++ rest) = .ok (i, rest) := by
  cases i with
  | brk | inx | tax => rfl
  | ldaImm o | ldaZp o | ldaZpX o | ldaIndX o | ldaIndY o => rfl
  | ldaAbs w => exact congrArg (fun u => Except.ok (Instr.ldaAbs u, rest)) (wordOf_highByte_lowByte w)
  | ldaAbsX w => exact congrArg (fun u => Except.ok (Instr.ldaAbsX u, rest)) (wordOf_highByte_lowByte w)
  | ldaAbsY w => exact congrArg (fun u => Except.ok (Instr.ldaAbsY u, rest)) (wordOf_highByte_lowByte w)
  | jmpAbs w => exact congrArg (fun u => Except.ok (Instr.jmpAbs u, rest)) (wordOf_highByte_lowByte w)

/-- No operand value is reserved (spec/30_encoding.md R71). -/
theorem instr_wf (i : Instr) : i.wf = true := by
  cases i with
  | brk | inx | tax => rfl
  | ldaImm o | ldaZp o | ldaZpX o | ldaIndX o | ldaIndY o => rfl
  | ldaAbs w | ldaAbsX w | ldaAbsY w | jmpAbs w => rfl

/-- Settles O1: well-formedness and the round trip. -/
theorem decodeOfEncodeGivesTheInstruction : Obligations.DecodeOfEncodeGivesTheInstruction :=
  fun i rest => ⟨instr_wf i, decode_encode_append i rest⟩

/-- What a row makes is encoded as the row's opcode and as many of the operand bytes as its mode has. -/
theorem encode_make : ∀ r ∈ catalog, ∀ l h : Byte,
    encode (r.make l h) = r.opcode :: [l, h].take r.descriptor.mode.format.operandBytes := by
  simp [catalog, encode, Instr.opcode, Instr.operand, Operand.bytes, Mode.format, Format.operandBytes]

theorem opcode_of_rowOf {op : Byte} {r : Row} (h : rowOf op = some r) : r.opcode = op := by
  simpa using List.find?_some h

/-- Everything that decodes: a mapped opcode byte, the operand bytes of its row, and the rest. -/
theorem eq_encode_append_of_decode {bytes rest : List Byte} {i : Instr} (h : decode bytes = .ok (i, rest)) :
    bytes = encode i ++ rest := by
  cases bytes with
  | nil => cases h
  | cons op tail =>
    rw [decode] at h
    cases hr : rowOf op with
    | none => simp only [hr] at h; cases h
    | some r =>
      have hencode := encode_make r (Machine.mem_catalog_of_rowOf hr)
      rw [opcode_of_rowOf hr] at hencode
      simp only [hr] at h
      split at h
      case h_1 hf | h_2 hf | h_3 hf =>
        cases h
        simp [hencode, hf, Format.operandBytes]
      all_goals cases h

/-- Settles O2. -/
theorem decodedBytesAreTheInstructionsEncoding : Obligations.DecodedBytesAreTheInstructionsEncoding :=
  fun _ _ _ => eq_encode_append_of_decode

theorem lookup_isSome_iff (op : Byte) : (lookup op).isSome = true ↔ op ∈ mappedOpcodes := by
  revert op
  decide

theorem rowOf_eq_none_iff (op : Byte) : rowOf op = none ↔ op ∉ mappedOpcodes := by
  rw [← lookup_isSome_iff, lookup, Option.isSome_map, Option.not_isSome_iff_eq_none]

/-- The decoder rejects a byte by name exactly where it has no row; a mapped one is at worst truncated. -/
theorem decode_unknownOpcode_iff (op : Byte) (rest : List Byte) :
    decode (op :: rest) = .error (.unknownOpcode op) ↔ rowOf op = none := by
  rw [decode]
  cases hr : rowOf op with
  | none => simp
  | some r =>
    simp only [reduceCtorEq, iff_false]
    split <;> exact fun h => nomatch h

/-- Settles O3. -/
theorem exactlyTwelveOpcodeBytesAreMapped : Obligations.ExactlyTwelveOpcodeBytesAreMapped := fun op rest =>
  ⟨lookup_isSome_iff op, (decode_unknownOpcode_iff op rest).trans (rowOf_eq_none_iff op)⟩

/-- Settles O4: each word is the encoding of its instruction. -/
theorem wordsOfTheSpecDecode : Obligations.WordsOfTheSpecDecode :=
  ⟨decode_encode_append .brk [], decode_encode_append (.ldaImm 0x0F) [], decode_encode_append (.ldaZpX 0x10) [],
    decode_encode_append (.ldaAbsX 0x1234) [], decode_encode_append (.ldaIndX 0x10) [],
    decode_encode_append (.jmpAbs 0x8000) [], decode_encode_append .inx [], decode_encode_append .tax []⟩

/-- Settles O5, instruction by instruction. -/
theorem catalogRowDescribesTheInstruction : Obligations.CatalogRowDescribesTheInstruction := by
  intro i
  cases i with
  | brk | inx | tax => exact ⟨_, rfl, rfl, rfl, rfl, rfl⟩
  | ldaImm o | ldaZp o | ldaZpX o | ldaIndX o | ldaIndY o => exact ⟨_, rfl, rfl, rfl, rfl, rfl⟩
  | ldaAbs w | ldaAbsX w | ldaAbsY w | jmpAbs w => exact ⟨_, rfl, rfl, rfl, rfl, rfl⟩

end Sys2Proof
end

section
/-! What a step writes and what it leaves: the frame of every effect as one equation, and the invariants of a step
(spec/10_state.md R20, R21, R26; spec/60_exceptions.md R122 to R130). -/

namespace Sys2Proof.Machine

open Sys2Proof.Claims

variable {i : Instr} {s t : State}

/-- The state that no instruction writes: Y, the flags C, I, D, B, V, memory and the unwritten mark. -/
structure StepFrame (s t : State) : Prop where
  y : t.y = s.y
  c : t.c = s.c
  i : t.i = s.i
  d : t.d = s.d
  b : t.b = s.b
  v : t.v = s.v
  mem : t.mem = s.mem
  unwritten : t.unwritten = s.unwritten

theorem StepFrame.refl (s : State) : StepFrame s s := ⟨rfl, rfl, rfl, rfl, rfl, rfl, rfl, rfl⟩

theorem stepFrame_takeFault (r : Fault) (s : State) : StepFrame s (takeFault r s) :=
  ⟨rfl, rfl, rfl, rfl, rfl, rfl, rfl, rfl⟩

theorem Effect.frame (h : Effect i s t) : StepFrame s t := by
  cases h with
  | trap _ _ => exact stepFrame_takeFault _ s
  | halt _ | jump _ _ _ => exact ⟨rfl, rfl, rfl, rfl, rfl, rfl, rfl, rfl⟩
  | load _ _ | increment _ | transfer _ => exact ⟨rfl, rfl, rfl, rfl, rfl, rfl, rfl, rfl⟩

theorem step_frame (h : step s = .next t) : StepFrame s t := by
  rcases step_cases h with ⟨-, rfl⟩ | ⟨-, -, rfl⟩ | ⟨-, -, rfl⟩ | ⟨-, i, -, -, heffect⟩
  · exact .refl t
  · exact stepFrame_takeFault _ s
  · exact stepFrame_takeFault _ s
  · exact heffect.frame

/-- Settles O37, from the frame of a step. -/
theorem stepsNeverWriteMemoryYOrTheFiveFlags : Obligations.StepsNeverWriteMemoryYOrTheFiveFlags := by
  intro s t h
  obtain ⟨hy, hc, hi, hd, hb, hv, hmem, -⟩ := step_frame h
  exact ⟨hmem, hy, hc, hi, hd, hb, hv⟩

/-- Only the loads write A. -/
theorem Effect.a_eq (h : Effect i s t) (hm : i.mnemonic ≠ .lda) : t.a = s.a := by
  cases h with
  | load hlda _ => exact absurd hlda hm
  | trap _ _ | halt _ | jump _ _ _ | increment _ | transfer _ => rfl

/-- Only INX and TAX write X. -/
theorem Effect.x_eq (h : Effect i s t) (hinx : i.mnemonic ≠ .inx) (htax : i.mnemonic ≠ .tax) : t.x = s.x := by
  cases h with
  | increment hm => exact absurd hm hinx
  | transfer hm => exact absurd hm htax
  | trap _ _ | halt _ | load _ _ | jump _ _ _ => rfl

/-- Z and N are as before, or both test the register that was written. -/
theorem Effect.z_n_cases (h : Effect i s t) :
    (t.z = s.z ∧ t.n = s.n) ∨
      (i.mnemonic = .lda ∧ t.z = decide (t.a.toNat = 0) ∧ t.n = decide (128 ≤ t.a.toNat) ∧ t.x = s.x) ∨
      ((i.mnemonic = .inx ∨ i.mnemonic = .tax) ∧
        t.z = decide (t.x.toNat = 0) ∧ t.n = decide (128 ≤ t.x.toNat) ∧ t.a = s.a) := by
  cases h with
  | trap _ _ | halt _ | jump _ _ _ => exact .inl ⟨rfl, rfl⟩
  | load hm w => exact .inr (.inl ⟨hm, beq_zero w, getLsbD_seven w, rfl⟩)
  | increment hm => exact .inr (.inr ⟨.inl hm, beq_zero _, getLsbD_seven _, rfl⟩)
  | transfer hm => exact .inr (.inr ⟨.inr hm, beq_zero _, getLsbD_seven _, rfl⟩)

/-- The control state an instruction leaves: only BRK halts, only the operand's word read faults. -/
theorem Effect.engine_cases (h : Effect i s t) :
    (t.engine = .running ∧ i.mnemonic ≠ .brk) ∨ (t.engine = .halted ∧ i.mnemonic = .brk) ∨
      t.engine = .faulted (.wordAccessAtTop 0xFFFF) := by
  cases h with
  | trap _ _ => exact .inr (.inr rfl)
  | halt hm => exact .inr (.inl ⟨rfl, hm⟩)
  | load hm _ | jump hm _ _ | increment hm | transfer hm => exact .inl ⟨rfl, by simp [hm]⟩

/-- Settles O36, from the frame of an effect and what it writes. -/
theorem instructionsWriteOnlyTheirRegisters : Obligations.InstructionsWriteOnlyTheirRegisters := by
  intro i s t h
  have heffect := exec_effect h
  obtain ⟨hy, hc, hi, hd, hb, hv, hmem, hu⟩ := heffect.frame
  refine ⟨heffect.a_eq, heffect.x_eq, ?flags, hy, hc, hi, hd, hb, hv, hu, fun address => by rw [hmem], hmem, ?engine⟩
  case flags =>
    intro hm
    rcases heffect.z_n_cases with hzn | ⟨hlda, -⟩ | ⟨hx, -⟩
    · exact hzn
    · simp [hlda] at hm
    · rcases hx with hx | hx <;> simp [hx] at hm
  case engine =>
    rcases heffect.engine_cases with ⟨he, -⟩ | ⟨he, -⟩ | he
    · exact .inl he
    · exact .inr (.inl he)
    · exact .inr (.inr he)

/-- Settles O38: a step that faults or does nothing keeps Z and N, and an instruction's effect says the rest. -/
theorem zAndNFollowTheRegisterWritten : Obligations.ZAndNFollowTheRegisterWritten := by
  intro s t h
  rcases step_cases h with ⟨-, rfl⟩ | ⟨-, -, rfl⟩ | ⟨-, -, rfl⟩ | ⟨-, i, -, -, heffect⟩
  · exact .inl ⟨rfl, rfl⟩
  · exact .inl ⟨rfl, rfl⟩
  · exact .inl ⟨rfl, rfl⟩
  · rcases heffect.z_n_cases with hzn | ⟨-, hload⟩ | ⟨-, hx⟩
    · exact .inl hzn
    · exact .inr (.inl hload)
    · exact .inr (.inr hx)

/-! ### The bytes behind a fetched instruction -/

theorem fetchBytes_eq (s : State) :
    fetchBytes s = [byteAt s s.pc.toNat, byteAt s (s.pc.toNat + 1), byteAt s (s.pc.toNat + 2)] := by
  have hsecond : readByte s (s.pc + 2) = byteAt s (s.pc.toNat + 2) := readByte_add s s.pc 2
  rw [fetchBytes, readByte_pc, readByte_add_one, hsecond]

/-- Settles O6: the three bytes are the fetched ones. -/
theorem stepRunsTheDecodedInstruction : Obligations.StepRunsTheDecodedInstruction := by
  intro s i rest hx hdecode
  rw [← fetchBytes_eq] at hdecode
  rw [step_executable hx, fetchInstr_of_decode hdecode]

/-- The byte at PC is the opcode of the instruction that is fetched there. -/
theorem byteAt_pc_of_fetchInstr (h : fetchInstr s = some i) : byteAt s s.pc.toNat = i.opcode := by
  rw [fetchInstr] at h
  split at h
  · next j rest hdecode =>
    cases h
    have hbytes := eq_encode_append_of_decode hdecode
    rw [fetchBytes_eq, encode, List.cons_append] at hbytes
    exact (List.cons.inj hbytes).1
  · cases h

/-- Nothing is fetched only where the opcode byte is unmapped. -/
theorem not_mem_mappedOpcodes_of_fetchInstr_none (h : fetchInstr s = none) :
    byteAt s s.pc.toNat ∉ mappedOpcodes := by
  rw [← readByte_pc, ← rowOf_eq_none_iff]
  cases hr : rowOf (readByte s s.pc) with
  | none => rfl
  | some r => cases (fetchInstr_of_rowOf hr).symm.trans h

theorem opcode_mem_wordOperandOpcodes_iff (i : Instr) :
    i.opcode ∈ wordOperandOpcodes ↔ i.operand.format = .op16 := by
  cases i <;> simp [Instr.opcode, wordOperandOpcodes, Instr.operand, Operand.format]

theorem opcode_eq_zero_iff (i : Instr) : i.opcode = 0x00 ↔ i.mnemonic = .brk := by
  cases i <;> simp [Instr.opcode, Instr.mnemonic]

/-! ### The invariant -/

/-- A step leaves a consistent control state; only from Halted, where it changes nothing, must it have been so. -/
theorem step_keeps_engineConsistent (h : step s = .next t) (hs : s.engineConsistent = true) :
    t.engineConsistent = true := by
  rcases step_cases h with ⟨-, rfl⟩ | ⟨-, hu, rfl⟩ | ⟨hx, hfetch, rfl⟩ | ⟨hx, i, -, -, heffect⟩
  · exact hs
  · exact hu
  · have hlookup := not_mem_mappedOpcodes_of_fetchInstr_none hfetch
    rw [← lookup_isSome_iff, ← readByte_pc] at hlookup
    simpa [State.engineConsistent, hx.2] using hlookup
  · cases heffect with
    | trap _ hpc => simp [State.engineConsistent, hx.2, hpc]
    | halt _ | load _ _ | jump _ _ _ | increment _ | transfer _ => simp [State.engineConsistent, hx.2]

/-- The byte a fault is about stands at PC, because the faulting step changed nothing. -/
theorem step_keeps_faultExplained (h : step s = .next t) (hs : s.faultExplained = true) :
    t.faultExplained = true := by
  rcases step_cases h with ⟨-, rfl⟩ | ⟨-, -, rfl⟩ | ⟨-, -, rfl⟩ | ⟨-, i, hfetch, -, heffect⟩
  · exact hs
  · rfl
  · exact beq_self_eq_true _
  · cases heffect with
    | trap hformat _ =>
      rw [← opcode_mem_wordOperandOpcodes_iff, ← byteAt_pc_of_fetchInstr hfetch, ← readByte_pc] at hformat
      exact List.contains_iff_mem.mpr hformat
    | halt _ | load _ _ | jump _ _ _ | increment _ | transfer _ => rfl

theorem step_keeps_inv (h : step s = .next t) (hs : s.Inv) : t.Inv :=
  ⟨(step_frame h).mem.symm ▸ hs.1, step_keeps_engineConsistent h hs.2⟩

/-- Settles O40: memory is unchanged, and each control state a step leaves is consistent. -/
theorem everyStepKeepsTheInvariant : Obligations.EveryStepKeepsTheInvariant :=
  fun _ _ hinv hexplained h => ⟨step_keeps_inv h hinv, step_keeps_faultExplained h hexplained⟩

/-- A byte is not zero and negative at once, so Z and N stay exclusive (spec/43_load.md R110). -/
theorem step_keeps_afterReset (h : step s = .next t) (hs : s.AfterReset) : t.AfterReset := by
  obtain ⟨hu, hy, hc, hi, hd, hb, hv, hzn⟩ := hs
  have hframe := step_frame h
  refine ⟨hframe.unwritten.trans hu, hframe.y.trans hy, hframe.c.trans hc, hframe.i.trans hi, hframe.d.trans hd,
    hframe.b.trans hb, hframe.v.trans hv, ?_⟩
  have exclusive (w : Byte) : (decide (w.toNat = 0) && decide (128 ≤ w.toNat)) = false := by
    rw [← beq_zero, ← getLsbD_seven, zero_and_negative_exclusive]
  rcases zAndNFollowTheRegisterWritten s t h with ⟨hz, hn⟩ | ⟨hz, hn, -⟩ | ⟨hz, hn, -⟩ <;> rw [hz, hn]
  · exact hzn
  · exact exclusive t.a
  · exact exclusive t.x

end Sys2Proof.Machine
end

section
/-! What every host operation keeps, reduced to three facts: about writes of memory, about a step and about a reset
(spec/00_scope.md R7). -/

namespace Sys2Proof.Machine

open Sys2Proof.Claims

/-- `t` is `s` with at most other memory, canonical if it was. -/
def MemoryOnly (s t : State) : Prop := (s.mem.wf = true → t.mem.wf = true) ∧ { t with mem := s.mem } = s

variable {s t : State}

theorem MemoryOnly.refl (s : State) : MemoryOnly s s := ⟨id, rfl⟩

theorem MemoryOnly.trans {u : State} (h : MemoryOnly s t) (h' : MemoryOnly t u) : MemoryOnly s u :=
  ⟨h'.1 ∘ h.1, (congrArg (fun v : State => { v with mem := s.mem }) h'.2).trans h.2⟩

theorem MemoryOnly.engine (h : MemoryOnly s t) : t.engine = s.engine := by rw [← h.2]

theorem MemoryOnly.pc (h : MemoryOnly s t) : t.pc = s.pc := by rw [← h.2]

theorem MemoryOnly.unwritten (h : MemoryOnly s t) : t.unwritten = s.unwritten := by rw [← h.2]

theorem memoryOnly_hostWrite (q : Word) (w : Byte) (s : State) : MemoryOnly s (hostWrite q w s).2 :=
  ⟨fun h => writeByte_wf h q w, rfl⟩

theorem memoryOnly_hostRead16 (q : Word) (s : State) : MemoryOnly s (hostRead16 q s).2 := by
  rw [hostRead16]
  split <;> exact .refl s

theorem memoryOnly_hostWrite16 (q w : Word) (s : State) : MemoryOnly s (hostWrite16 q w s).2 := by
  rw [hostWrite16]
  split
  · exact .refl s
  · exact ⟨fun h => writeWord_wf h q w, rfl⟩

theorem memoryOnly_hostWriteRange (start : Word) (bytes : List Byte) (s : State) :
    MemoryOnly s (hostWriteRange start bytes s).2 := by
  rw [hostWriteRange]
  split
  · exact .refl s
  · next hlen => exact ⟨fun h => wf_writeList h (by omega), rfl⟩

theorem memoryOnly_hostLoad (program : List Byte) (s : State) : MemoryOnly s (hostLoad program s).2 := by
  rcases faulted_or_not s with ⟨r, h⟩ | h
  · rw [hostLoad_faulted program h]
    exact .refl s
  · rw [hostLoad_eq program h]
    split
    · exact .refl s
    · next hlen =>
      have hfits : loadBase.toNat + program.length ≤ 65536 := by
        simp only [romCapacity, loadBase, BitVec.reduceToNat] at hlen ⊢
        omega
      exact ⟨fun hwf => writeWord_wf (wf_writeList hwf hfits) _ _, rfl⟩

theorem hostStep_keeps {P : State → Prop} (hstep : ∀ {s t}, step s = .next t → P s → P t) (s : State) (h : P s) :
    P (hostStep s).2 := by
  rcases hostStep_cases s with ⟨t, ht, heq⟩ | ⟨r, -, heq⟩ | ⟨q, -, heq⟩ <;> rw [heq]
  · exact hstep ht h
  · exact h
  · exact h

/-- What a write of memory, a step and a reset keep, every host operation keeps. -/
theorem applyHostOp_keeps (P : State → Prop) (hmem : ∀ {s t}, MemoryOnly s t → P s → P t)
    (hstep : ∀ {s t}, step s = .next t → P s → P t) (hreset : ∀ s, P s → P (hostReset s).2) (op : HostOp)
    (s : State) (h : P s) : P (applyHostOp op s).2 := by
  cases op with
  | read q => exact h
  | write q w => exact hmem (memoryOnly_hostWrite q w s) h
  | read16 q => exact hmem (memoryOnly_hostRead16 q s) h
  | write16 q w => exact hmem (memoryOnly_hostWrite16 q w s) h
  | writeRange start bytes => exact hmem (memoryOnly_hostWriteRange start bytes s) h
  | load program => exact hmem (memoryOnly_hostLoad program s) h
  | reset => exact hreset s h
  | step => exact hostStep_keeps hstep s h
  | run fuel => exact hostRun_keeps P (hostStep_keeps hstep) fuel s h
  | interpret fuel program =>
    exact hostInterpret_keeps P (hostStep_keeps hstep) (fun program s => hmem (memoryOnly_hostLoad program s)) hreset
      fuel program s h

/-! ### The invariants -/

/-- A reset leaves Faulted alone; from every other control state it writes what the invariants are about. -/
theorem hostReset_cases (s : State) :
    (hostReset s).2 = s ∨ ∃ w, (hostReset s).2 = { State.reset with pc := w, mem := s.mem } := by
  rcases faulted_or_not s with ⟨r, h⟩ | h
  · exact .inl (by rw [hostReset_faulted h])
  · exact .inr ⟨_, by rw [hostReset_eq h]⟩

theorem MemoryOnly.inv (h : MemoryOnly s t) (hs : s.Inv) : t.Inv :=
  ⟨h.1 hs.1, (congrArg State.engineConsistent h.2).trans hs.2⟩

theorem hostReset_keeps_inv (s : State) (hs : s.Inv) : (hostReset s).2.Inv := by
  rcases hostReset_cases s with h | ⟨w, h⟩ <;> rw [h]
  · exact hs
  · exact ⟨hs.1, rfl⟩

/-- Settles O41: writes of memory, a step and a reset keep the invariant. -/
theorem everyHostOperationKeepsTheInvariant : Obligations.EveryHostOperationKeepsTheInvariant :=
  applyHostOp_keeps State.Inv MemoryOnly.inv step_keeps_inv hostReset_keeps_inv

theorem MemoryOnly.afterReset (h : MemoryOnly s t) (hs : s.AfterReset) : t.AfterReset := by
  rw [← h.2] at hs
  exact hs

theorem afterReset_of_reset (pc : Word) (m : Memory) : { State.reset with pc := pc, mem := m }.AfterReset :=
  ⟨rfl, rfl, rfl, rfl, rfl, rfl, rfl, rfl⟩

theorem hostReset_keeps_afterReset (s : State) (hs : s.AfterReset) : (hostReset s).2.AfterReset := by
  rcases hostReset_cases s with h | ⟨w, h⟩ <;> rw [h]
  · exact hs
  · exact afterReset_of_reset w s.mem

/-- Settles O42: writes of memory, a step and a reset keep what reset leaves. -/
theorem whatResetLeavesHoldsFromThenOn : Obligations.WhatResetLeavesHoldsFromThenOn :=
  applyHostOp_keeps State.AfterReset MemoryOnly.afterReset step_keeps_afterReset hostReset_keeps_afterReset

theorem construct_inv (cfg : Config) : (construct cfg).Inv := ⟨rfl, rfl⟩

/-- Settles O43. -/
theorem resetHasTheInvariants : Obligations.ResetHasTheInvariants :=
  ⟨⟨rfl, rfl⟩, rfl, afterReset_of_reset 0 [], fun cfg => ⟨construct_inv cfg, rfl⟩⟩

/-! ### Reachable states -/

/-- Where the registers are written, they are as reset and the steps after it leave them. -/
def State.AfterResetIfWritten (s : State) : Prop := s.unwritten = false → s.AfterReset

theorem construct_afterResetIfWritten (cfg : Config) : (construct cfg).AfterResetIfWritten :=
  fun h => ⟨h, rfl, rfl, rfl, rfl, rfl, rfl, rfl⟩

/-- Only a reset clears the unwritten mark. -/
theorem applyHostOp_keeps_afterResetIfWritten (op : HostOp) (s : State) (hs : s.AfterResetIfWritten) :
    (applyHostOp op s).2.AfterResetIfWritten := by
  refine applyHostOp_keeps State.AfterResetIfWritten ?memory ?step ?reset op s hs
  case memory => exact fun h hs hu => h.afterReset (hs (h.unwritten.symm.trans hu))
  case step => exact fun h hs hu => step_keeps_afterReset h (hs ((step_frame h).unwritten.symm.trans hu))
  case reset =>
    intro s hs
    rcases hostReset_cases s with h | ⟨w, h⟩ <;> rw [h]
    · exact hs
    · exact fun _ => afterReset_of_reset w s.mem

/-- Settles O44, by induction on the operations that lead to the state. -/
theorem everyReachableStateIsConsistent : Obligations.EveryReachableStateIsConsistent := by
  intro cfg t hreach
  induction hreach with
  | refl => exact ⟨construct_inv cfg, construct_afterResetIfWritten cfg⟩
  | op o _ ih =>
    obtain ⟨hinv, hafter⟩ := ih
    exact ⟨everyHostOperationKeepsTheInvariant o _ hinv, applyHostOp_keeps_afterResetIfWritten o _ hafter⟩

end Sys2Proof.Machine
end

section
/-! The addresses in natural-number arithmetic and the resolver in the modes that read a word
(spec/41_address_resolver.md R96 to R101). -/

namespace Sys2Proof.Machine

open Sys2Proof.Claims

variable {pc0 : Word} {s : State}

theorem operandWord_top (w : Word) : operandWord 0xFFFE#16 w = .error (.wordAccessAtTop 0xFFFF#16) := rfl

theorem operandWord_ok (h : pc0 ≠ 0xFFFE#16) (w : Word) : operandWord pc0 w = .ok w := by
  rcases operandWord_cases pc0 w with ⟨htop, -⟩ | ⟨-, hok⟩
  · exact absurd htop h
  · exact hok

theorem readByte_zext16 (s : State) (b : Byte) : readByte s (zext16 b) = s.mem.read b.toNat := by
  rw [readByte, zext16_toNat]

/-- A zero-page sum wraps modulo 256. -/
theorem readByte_zext16_add (s : State) (b w : Byte) :
    readByte s (zext16 (b + w)) = s.mem.read ((b.toNat + w.toNat) % 256) := by
  rw [readByte_zext16, BitVec.toNat_add]

/-- An indexed address wraps modulo 65536. -/
theorem readByte_add_zext16 (s : State) (w : Word) (b : Byte) :
    readByte s (w + zext16 b) = s.mem.read ((w.toNat + b.toNat) % 65536) := by
  rw [readByte, BitVec.toNat_add, zext16_toNat]

/-- The pointer in page zero under both values of `ZP_POINTER_WRAP` (D5). -/
theorem zpPointer_toNat (cfg : Config) (p : Byte) (s : State) :
    (zpPointer cfg p s).toNat =
      (s.mem.read (if cfg.zpPointerWrap then (p.toNat + 1) % 256 else p.toNat + 1)).toNat * 256 +
        (s.mem.read p.toNat).toNat := by
  rw [zpPointer, wordOf_toNat, readByte_zext16, zpPointerHigh]
  split
  · rw [readByte_zext16_add]
    rfl
  · have := p.isLt
    rw [readByte_add_one, zext16_toNat, byteAt, Nat.mod_eq_of_lt (by omega)]

/-! ### Resolve -/

theorem eq_ofNat_of_toNat {w : Word} {n : Nat} (h : w.toNat = n) : w = BitVec.ofNat 16 n := by
  rw [← h, BitVec.ofNat_toNat, BitVec.setWidth_eq]

/-- The 16-bit operand as an address. -/
theorem operand_eq_ofNat (s : State) (pc0 : Word) :
    wordOf (readByte s (pc0 + 2)) (readByte s (pc0 + 1)) = BitVec.ofNat 16 (wordAt s (pc0.toNat + 1)) :=
  eq_ofNat_of_toNat (operand_toNat s pc0)

/-- A word plus an index, in natural numbers. -/
theorem ofNat_add_zext16 (n : Nat) (b : Byte) :
    BitVec.ofNat 16 n + zext16 b = BitVec.ofNat 16 ((n + b.toNat) % 65536) := by
  apply BitVec.eq_of_toNat_eq
  simp [BitVec.toNat_add, zext16_toNat]

/-- Settles O33: the operand's word read decides, then the index is added. -/
theorem resolveAbsoluteModes : Obligations.ResolveAbsoluteModes := by
  intro cfg pc0 s
  refine ⟨?top, fun h => ⟨?absolute, ?absoluteX, ?absoluteY⟩⟩
  case top =>
    rintro rfl m hm
    simp only [List.mem_cons, List.not_mem_nil, or_false] at hm
    rcases hm with rfl | rfl | rfl <;> rfl
  case absolute => rw [resolve, eaAbsolute, operandWord_ok h, operand_eq_ofNat]; rfl
  case absoluteX => rw [resolve, eaAbsoluteX, operandWord_ok h, operand_eq_ofNat, ← ofNat_add_zext16]; rfl
  case absoluteY => rw [resolve, eaAbsoluteY, operandWord_ok h, operand_eq_ofNat, ← ofNat_add_zext16]; rfl

theorem resolve_indirect_top (cfg : Config) (s : State) :
    resolve cfg .indirect 0xFFFE#16 s = .error (.wordAccessAtTop 0xFFFF) := rfl

/-- Away from 0xFFFE the Indirect mode is a word read at the operand. -/
theorem resolve_indirect (cfg : Config) (s : State) (h : pc0 ≠ 0xFFFE#16) :
    resolve cfg .indirect pc0 s = (readWord s (wordOf (readByte s (pc0 + 2)) (readByte s (pc0 + 1)))).map .addr := by
  rw [resolve, eaIndirect, operandWord_ok h]
  rfl

theorem resolve_indirect_pointer_top (cfg : Config) (h : pc0 ≠ 0xFFFE#16) (hw : wordAt s (pc0.toNat + 1) = 65535) :
    resolve cfg .indirect pc0 s = .error (.wordAccessAtTop 0xFFFF) := by
  rw [resolve_indirect cfg s h, operand_eq_ofNat, hw]
  rfl

theorem resolve_indirect_ok (cfg : Config) (h : pc0 ≠ 0xFFFE#16) (hw : wordAt s (pc0.toNat + 1) ≠ 65535) :
    resolve cfg .indirect pc0 s = .ok (.addr (BitVec.ofNat 16 (wordAt s (wordAt s (pc0.toNat + 1))))) := by
  have hne : wordOf (readByte s (pc0 + 2)) (readByte s (pc0 + 1)) ≠ topAddress := by
    intro htop
    rw [← operand_toNat, htop] at hw
    exact hw rfl
  rw [resolve_indirect cfg s h, readWord, if_neg hne, wordOf_readByte, operand_toNat]
  rfl

/-- Settles O34: the operand word first, then the pointer it is. -/
theorem resolveIndirect : Obligations.ResolveIndirect := fun cfg _ s =>
  ⟨fun h => h ▸ resolve_indirect_top cfg s, resolve_indirect_pointer_top cfg, resolve_indirect_ok cfg⟩

/-- Settles O35, from the pointer in page zero. -/
theorem resolveZeroPagePointerModes : Obligations.ResolveZeroPagePointerModes := by
  intro cfg pc0 s
  refine ⟨?indirectX, ?indirectY⟩
  case indirectX =>
    rw [resolve, eaIndirectX, readByte_add_one, eq_ofNat_of_toNat (zpPointer_toNat cfg _ s), BitVec.toNat_add]
  case indirectY =>
    rw [resolve, eaIndirectY, readByte_add_one, eq_ofNat_of_toNat (zpPointer_toNat cfg _ s), ofNat_add_zext16]

end Sys2Proof.Machine
end

section
/-! Each instruction's whole next state (spec/42_break.md, spec/43_load.md, spec/44_jump.md, spec/45_register.md). -/

namespace Sys2Proof.Machine

open Sys2Proof.Claims

variable {s : State}

theorem lowByte_eq_ofNat (w : Word) : lowByte w = BitVec.ofNat 8 w.toNat :=
  BitVec.eq_of_toNat_eq (by simp [lowByte_toNat])

theorem highByte_eq_ofNat (w : Word) : highByte w = BitVec.ofNat 8 (w.toNat / 256) := by
  apply BitVec.eq_of_toNat_eq
  have := w.isLt
  rw [highByte_toNat, BitVec.toNat_ofNat]
  omega

/-- The bytes of an instruction with a 16-bit operand, low byte first. -/
theorem encode_word {i : Instr} {w : Word} (h : i.operand = .word w) :
    encode i = [i.opcode, BitVec.ofNat 8 w.toNat, BitVec.ofNat 8 (w.toNat / 256)] := by
  rw [encode, h, Operand.bytes, lowByte_eq_ofNat, highByte_eq_ofNat]

theorem loadFrom_ok (length : Nat) (q : Word) (s : State) :
    loadFrom length (.ok q) s = .next (loadedA (readByte s q) length s) :=
  congrArg Host.Outcome.next (finish_loadAccumulator length (readByte s q) s)

/-- The word read of a 16-bit operand at 0xFFFF faults, in every instruction that has one (D4). -/
theorem exec_word_operand_at_top {i : Instr} (hi : i.operand.format = .op16) (hpc : s.pc = 0xFFFE#16) :
    exec i s = .next (faultedWith (.wordAccessAtTop 0xFFFF) s) := by
  cases i with
  | brk | inx | tax => cases hi
  | ldaImm o | ldaZp o | ldaZpX o | ldaIndX o | ldaIndY o => cases hi
  | ldaAbs w => rw [exec, execLdaAbs, eaAbsolute, hpc, operandWord_top]; rfl
  | ldaAbsX w => rw [exec, execLdaAbsX, eaAbsoluteX, hpc, operandWord_top]; rfl
  | ldaAbsY w => rw [exec, execLdaAbsY, eaAbsoluteY, hpc, operandWord_top]; rfl
  | jmpAbs w => rw [exec, execJmpAbs, eaAbsolute, hpc, operandWord_top]; rfl

/-- Settles O18: the PC advance as a sum of numbers. -/
theorem breakHaltsAndAdvancesPC : Obligations.BreakHaltsAndAdvancesPC := by
  intro s
  refine ⟨rfl, ?_⟩
  rw [exec, execBrk, advance_eq, word_add]
  rfl

/-- Settles O20. -/
theorem loadZeroPage : Obligations.LoadZeroPage := by
  intro o s
  refine ⟨rfl, ?_⟩
  rw [exec, execLdaZp, loadFrom_ok, eaZeroPage, readByte_zext16]

/-- Settles O21. -/
theorem loadZeroPageX : Obligations.LoadZeroPageX := by
  intro o s
  refine ⟨rfl, ?_⟩
  rw [exec, execLdaZpX, loadFrom_ok, eaZeroPageX, readByte_zext16_add]

/-- Settles O22. -/
theorem loadAbsolute : Obligations.LoadAbsolute := by
  intro w s
  refine ⟨encode_word rfl, fun h => ?_, exec_word_operand_at_top rfl⟩
  rw [exec, execLdaAbs, eaAbsolute, operandWord_ok h, loadFrom_ok, readByte]

/-- Settles O23. -/
theorem loadAbsoluteX : Obligations.LoadAbsoluteX := by
  intro w s
  refine ⟨encode_word rfl, fun h => ?_, exec_word_operand_at_top rfl⟩
  rw [exec, execLdaAbsX, eaAbsoluteX, operandWord_ok h, Except.map, loadFrom_ok, readByte_add_zext16]

/-- Settles O24. -/
theorem loadAbsoluteY : Obligations.LoadAbsoluteY := by
  intro w s
  refine ⟨encode_word rfl, fun h => ?_, exec_word_operand_at_top rfl⟩
  rw [exec, execLdaAbsY, eaAbsoluteY, operandWord_ok h, Except.map, loadFrom_ok, readByte_add_zext16]

/-- The pointer of the two indirect modes under the spec's `ZP_POINTER_WRAP`. -/
theorem zpPointer_ofSpec_toNat (p : Byte) (s : State) :
    (zpPointer Config.ofSpec p s).toNat =
      (s.mem.read ((p.toNat + 1) % 256)).toNat * 256 + (s.mem.read p.toNat).toNat :=
  zpPointer_toNat Config.ofSpec p s

/-- Settles O25: the pointer's own address wraps first, then its high byte's. -/
theorem loadIndirectX : Obligations.LoadIndirectX := by
  intro o s
  refine ⟨rfl, ?_⟩
  rw [exec, execLdaIndX, loadFrom_ok, eaIndirectX, readByte, zpPointer_ofSpec_toNat, BitVec.toNat_add,
    Nat.mod_add_mod]

/-- Settles O26. -/
theorem loadIndirectY : Obligations.LoadIndirectY := by
  intro o s
  refine ⟨rfl, ?_⟩
  rw [exec, execLdaIndY, loadFrom_ok, eaIndirectY, readByte_add_zext16, zpPointer_ofSpec_toNat]

theorem exec_jmpAbs (w : Word) (h : s.pc ≠ 0xFFFE#16) :
    exec (.jmpAbs w) s = .next { s with pc := w, engine := .running } := by
  rw [exec, execJmpAbs, eaAbsolute, operandWord_ok h]
  rfl

/-- Settles O27. -/
theorem jumpAbsolute : Obligations.JumpAbsolute := fun w _ =>
  ⟨encode_word rfl, exec_jmpAbs w, exec_word_operand_at_top rfl⟩

/-- Settles O28: the shared write of X, with the sum modulo 256. -/
theorem incrementX : Obligations.IncrementX := by
  intro s
  have hsum : s.x + 1 = BitVec.ofNat 8 ((s.x.toNat + 1) % 256) :=
    BitVec.eq_of_toNat_eq (by simp [BitVec.toNat_add])
  refine ⟨rfl, ?_⟩
  rw [exec, execInx, finish_loadX, hsum]

/-- Settles O31, over the seven flags. -/
theorem statusByteLayout : Obligations.StatusByteLayout := by
  intro s
  have layout : ∀ c z i d b v n : Bool,
      (BitVec.ofBool n ++ BitVec.ofBool v ++ BitVec.ofBool reservedFlag ++ BitVec.ofBool b ++ BitVec.ofBool d ++
        BitVec.ofBool i ++ BitVec.ofBool z ++ BitVec.ofBool c).toNat =
      n.toNat * 128 + v.toNat * 64 + 32 + b.toNat * 16 + d.toNat * 8 + i.toNat * 4 + z.toNat * 2 + c.toNat := by
    decide
  exact layout s.c s.z s.i s.d s.b s.v s.n

end Sys2Proof.Machine
end

section
/-! Which faults a step raises, where, and in which order its checks come (spec/60_exceptions.md R122 to R129), and
the control states a step leads to (spec/40_execution_cycle.md R77, R84, R85). -/

namespace Sys2Proof.Machine

open Sys2Proof.Claims

variable {s t : State}

theorem mem_mappedOpcodes_of_mem_wordOperandOpcodes {op : Byte} (h : op ∈ wordOperandOpcodes) :
    op ∈ mappedOpcodes := by
  have hsub : ∀ w ∈ wordOperandOpcodes, w ∈ mappedOpcodes := by decide
  exact hsub op h

/-- A mapped byte with a 16-bit operand at 0xFFFE is fetched as an instruction whose word read faults. -/
theorem step_word_operand_at_top (hx : s.Executable) (hop : byteAt s s.pc.toNat ∈ wordOperandOpcodes)
    (hpc : s.pc = 0xFFFE#16) : step s = .next (faultedWith (.wordAccessAtTop 0xFFFF) s) := by
  rw [step_executable hx]
  cases hfetch : fetchInstr s with
  | none =>
    exact absurd (mem_mappedOpcodes_of_mem_wordOperandOpcodes hop) (not_mem_mappedOpcodes_of_fetchInstr_none hfetch)
  | some i =>
    rw [byteAt_pc_of_fetchInstr hfetch, opcode_mem_wordOperandOpcodes_iff] at hop
    exact exec_word_operand_at_top hop hpc

/-- The reasons a step from `s` raises, each with the values it records and where it is raised
(spec/60_exceptions.md R124 to R126). -/
def Raises (s : State) (r : Fault) : Prop :=
  (s.engine = .idle ∨ s.engine = .running) ∧
    ((s.unwritten = true ∧ r = .readBeforeReset) ∨
      (s.unwritten = false ∧ byteAt s s.pc.toNat ∉ mappedOpcodes ∧
        r = .unknownOpcode (byteAt s s.pc.toNat) s.pc) ∨
      (s.unwritten = false ∧ byteAt s s.pc.toNat ∈ wordOperandOpcodes ∧ s.pc = 0xFFFE#16 ∧
        r = .wordAccessAtTop 0xFFFF))

theorem step_of_raises {r : Fault} (h : Raises s r) : step s = .next (faultedWith r s) := by
  obtain ⟨he, ⟨hu, rfl⟩ | ⟨hu, hop, rfl⟩ | ⟨hu, hop, hpc, rfl⟩⟩ := h
  · exact step_unwritten he hu
  · exact step_unmapped ⟨he, hu⟩ hop
  · exact step_word_operand_at_top ⟨he, hu⟩ hop hpc

theorem raises_of_step {r : Fault} (h : step s = .next t) (hr : t.engine = .faulted r) : Raises s r := by
  rcases step_cases h with ⟨hhalted, rfl⟩ | ⟨he, hu, rfl⟩ | ⟨hx, hfetch, rfl⟩ | ⟨hx, i, hfetch, -, heffect⟩
  · cases hhalted.symm.trans hr
  · cases hr
    exact ⟨he, .inl ⟨hu, rfl⟩⟩
  · cases hr
    rw [readByte_pc]
    exact ⟨hx.1, .inr (.inl ⟨hx.2, not_mem_mappedOpcodes_of_fetchInstr_none hfetch, rfl⟩)⟩
  · cases heffect with
    | trap hformat hpc =>
      cases hr
      rw [← opcode_mem_wordOperandOpcodes_iff, ← byteAt_pc_of_fetchInstr hfetch] at hformat
      exact ⟨hx.1, .inr (.inr ⟨hx.2, hformat, hpc, rfl⟩)⟩
    | halt _ | load _ _ | jump _ _ _ | increment _ | transfer _ => cases hr

/-- Settles O13: what a faulted next state came from, and what each reason leads to. -/
theorem faultReasonsOfAStepAreExactlyTheList : Obligations.FaultReasonsOfAStepAreExactlyTheList := by
  refine fun s t r h => ⟨raises_of_step h, fun hr => ?_⟩
  cases h.symm.trans (step_of_raises hr)
  rfl

/-- Settles O10: after a reset no listed reason is ReadBeforeReset. -/
theorem onlyAStepBeforeResetFaultsReadBeforeReset : Obligations.OnlyAStepBeforeResetFaultsReadBeforeReset := by
  refine fun s he => ⟨step_unwritten he, fun hu t h hr => ?_⟩
  obtain ⟨-, ⟨hu', -⟩ | ⟨-, -, hr'⟩ | ⟨-, -, -, hr'⟩⟩ := raises_of_step h hr
  · cases hu.symm.trans hu'
  · cases hr'
  · cases hr'

/-- Settles O11: each check's fault on the condition that the checks before it pass. -/
theorem faultChecksComeInOrder : Obligations.FaultChecksComeInOrder :=
  ⟨fun _ he => ⟨step_unwritten he, fun hu => step_unmapped ⟨he, hu⟩, fun hu => step_word_operand_at_top ⟨he, hu⟩⟩,
    fun cfg s _ => ⟨fun h => h ▸ resolve_indirect_top cfg s, resolve_indirect_pointer_top cfg⟩⟩

theorem hostStep_halted (he : s.engine = .halted) : hostStep s = (.halts, s) := by
  rw [hostStep_of_next (step_halted he), he, signalOf]

theorem hostStep_faulted {r : Fault} (he : s.engine = .faulted r) : hostStep s = (.faults r, s) := by
  rw [hostStep, step_faulted he]

/-- A step from Idle or Running leads to Running, Halted or Faulted; none leaves Idle. -/
theorem engine_of_step (he : s.engine = .idle ∨ s.engine = .running) (h : step s = .next t) :
    t.engine = .running ∨ t.engine = .halted ∨ ∃ r, t.engine = .faulted r := by
  rcases step_cases h with ⟨hhalted, -⟩ | ⟨-, -, rfl⟩ | ⟨-, -, rfl⟩ | ⟨-, i, -, -, heffect⟩
  · rcases he with he | he <;> cases he.symm.trans hhalted
  · exact .inr (.inr ⟨_, rfl⟩)
  · exact .inr (.inr ⟨_, rfl⟩)
  · rcases heffect.engine_cases with ⟨ht, -⟩ | ⟨ht, -⟩ | ht
    · exact .inl ht
    · exact .inr (.inl ht)
    · exact .inr (.inr ⟨_, ht⟩)

/-- Settles O9, row by row of the transition table. -/
theorem stepTransitionsOfTheEngine : Obligations.StepTransitionsOfTheEngine := by
  refine fun s => ⟨fun he => ?_, fun he => ⟨step_halted he, hostStep_halted he⟩,
    fun r he => ⟨step_faulted he, hostStep_faulted he⟩⟩
  obtain ⟨t, ht⟩ := step_next_of_idle_or_running he
  exact ⟨t, ht, engine_of_step he ht⟩

/-- A step that does not fault ran an instruction: it halted on the byte 0x00 or runs on after another byte. -/
theorem engine_of_step_unfaulted (hx : s.Executable) (h : step s = .next t) (hnofault : ∀ r, t.engine ≠ .faulted r) :
    (byteAt s s.pc.toNat = 0x00 ∧ t.engine = .halted) ∨ (byteAt s s.pc.toNat ≠ 0x00 ∧ t.engine = .running) := by
  rcases step_cases h with ⟨hhalted, -⟩ | ⟨-, -, rfl⟩ | ⟨-, -, rfl⟩ | ⟨-, i, hfetch, -, heffect⟩
  · rcases hx.1 with he | he <;> cases he.symm.trans hhalted
  · exact absurd rfl (hnofault _)
  · exact absurd rfl (hnofault _)
  · rw [byteAt_pc_of_fetchInstr hfetch, opcode_eq_zero_iff, ne_eq, opcode_eq_zero_iff]
    rcases heffect.engine_cases with ⟨ht, hm⟩ | ⟨ht, hm⟩ | ht
    · exact .inr ⟨hm, ht⟩
    · exact .inl ⟨hm, ht⟩
    · exact absurd ht (hnofault _)

/-- Settles O16: the control state and its signal. -/
theorem onlyBreakHalts : Obligations.OnlyBreakHalts := by
  intro s t hx h hnofault
  rw [hostStep_of_next h]
  rcases engine_of_step_unfaulted hx h hnofault with ⟨hop, ht⟩ | ⟨hop, ht⟩ <;> rw [ht]
  · exact ⟨fun _ => ⟨rfl, rfl⟩, fun hne => absurd hop hne⟩
  · exact ⟨fun heq => absurd heq hop, fun _ => ⟨rfl, rfl⟩⟩

end Sys2Proof.Machine
end

section
/-! No step reads a flag (spec/10_state.md R26, spec/60_exceptions.md R132): from a state with other flags it
answers the same state, again with other flags. -/

namespace Sys2Proof.Machine

open Sys2Proof.Claims

variable {s t : State} (c z i d b v n : Bool)

theorem loadFrom_withFlags {length : Nat} {ea : Except Fault Word} (h : loadFrom length ea s = .next t) :
    ∃ z' n', loadFrom length ea (withFlags c z i d b v n s) = .next (withFlags c z' i d b v n' t) := by
  rcases loadFrom_cases h with ⟨r, rfl, rfl⟩ | ⟨q, rfl, rfl⟩
  · exact ⟨z, n, rfl⟩
  · exact ⟨_, _, rfl⟩

theorem execJmpAbs_withFlags {w : Word} (h : execJmpAbs w s = .next t) :
    execJmpAbs w (withFlags c z i d b v n s) = .next (withFlags c z i d b v n t) := by
  have hpc : (withFlags c z i d b v n s).pc = s.pc := rfl
  simp only [execJmpAbs, eaAbsolute, hpc] at h ⊢
  rcases operandWord_cases s.pc w with ⟨-, ho⟩ | ⟨-, ho⟩ <;> rw [ho] at h ⊢ <;> cases h <;> rfl

/-- An instruction overwrites Z and N or leaves them as they were chosen; the five other flags it leaves. -/
theorem exec_withFlags {j : Instr} (h : exec j s = .next t) :
    ∃ z' n', exec j (withFlags c z i d b v n s) = .next (withFlags c z' i d b v n' t) := by
  cases j with
  | brk => cases h; exact ⟨z, n, rfl⟩
  | ldaImm o | ldaZp o | ldaZpX o | ldaIndX o | ldaIndY o => cases h; exact ⟨_, _, rfl⟩
  | ldaAbs w | ldaAbsX w | ldaAbsY w => exact loadFrom_withFlags c z i d b v n h
  | jmpAbs w => exact ⟨z, n, execJmpAbs_withFlags c z i d b v n h⟩
  | inx | tax => cases h; exact ⟨_, _, rfl⟩

/-- The checks of a step and the fetch look at no flag either. -/
theorem step_withFlags (h : step s = .next t) :
    ∃ z' n', step (withFlags c z i d b v n s) = .next (withFlags c z' i d b v n' t) := by
  rcases step_cases h with ⟨he, rfl⟩ | ⟨he, hu, rfl⟩ | ⟨hx, hfetch, rfl⟩ | ⟨hx, j, hfetch, hexec, -⟩
  · exact ⟨z, n, step_halted he⟩
  · exact ⟨z, n, step_unwritten he hu⟩
  · have hx' : (withFlags c z i d b v n s).Executable := hx
    have hfetch' : fetchInstr (withFlags c z i d b v n s) = none := hfetch
    exact ⟨z, n, by rw [step_executable hx', hfetch']; rfl⟩
  · have hx' : (withFlags c z i d b v n s).Executable := hx
    have hfetch' : fetchInstr (withFlags c z i d b v n s) = some j := hfetch
    rw [step_executable hx', hfetch']
    exact exec_withFlags c z i d b v n hexec

/-- Settles O39: replacing the flags leaves every other field. -/
theorem flagsNeverInfluenceAStep : Obligations.FlagsNeverInfluenceAStep := by
  intro s t c z i d b v n h
  obtain ⟨z', n', hstep⟩ := step_withFlags c z i d b v n h
  exact ⟨_, hstep, rfl, rfl, rfl, rfl, rfl, rfl, rfl, rfl, rfl, rfl, rfl, rfl⟩

end Sys2Proof.Machine
end

section
/-! The word and range accessors and the load: what every byte of memory reads as afterwards
(spec/20_memory.md R40 to R48, spec/70_reset_and_hazards.md R143). -/

namespace Sys2Proof.Machine

open Sys2Proof.Claims

variable {s : State}

theorem ne_topAddress {p : Word} (h : p.toNat ≤ 65534) : p ≠ topAddress := by
  rintro rfl
  exact absurd h (by decide)

theorem hostRead16_ok {p : Word} (h : p.toNat ≤ 65534) (s : State) :
    hostRead16 p s = (.word (wordOf (readByte s (p + 1)) (readByte s p)), s) := by
  rw [hostRead16, if_neg (ne_topAddress h)]

theorem hostWrite16_ok {p : Word} (h : p.toNat ≤ 65534) (w : Word) (s : State) :
    hostWrite16 p w s = (.done, writeWord p w s) := by
  rw [hostWrite16, if_neg (ne_topAddress h)]

theorem writeWord_frame (p w : Word) (s : State) : { writeWord p w s with mem := s.mem } = s := rfl

/-- A written word stands at its address, low byte first; below 0xFFFF the two addresses do not wrap. -/
theorem read_writeWord (hwf : s.mem.wf = true) {p : Word} (hp : p.toNat ≤ 65534) (w : Word) (q : Nat) :
    (writeWord p w s).mem.read q =
      if q = p.toNat then lowByte w else if q = p.toNat + 1 then highByte w else s.mem.read q := by
  have hnext : (p + 1).toNat = p.toNat + 1 := by bv_omega
  rw [writeWord, writeByte_mem, read_write (writeByte_wf hwf p _), writeByte_mem, read_write hwf, hnext]
  split
  · next hq => rw [if_neg (by omega)]
  · rfl

theorem readWord_writeWord (hwf : s.mem.wf = true) {p : Word} (hp : p.toNat ≤ 65534) (w : Word) :
    wordOf (readByte (writeWord p w s) (p + 1)) (readByte (writeWord p w s) p) = w := by
  have hnext : (p + 1).toNat = p.toNat + 1 := by bv_omega
  rw [readByte, readByte, read_writeWord hwf hp, read_writeWord hwf hp, hnext, if_neg (by omega), if_pos rfl,
    if_pos rfl, wordOf_highByte_lowByte]

/-- Settles O46: what each byte reads as after the write, and the word joined again. -/
theorem wordRoundTrip : Obligations.WordRoundTrip := by
  intro s p w hwf hp
  rw [hostWrite16_ok hp, hostRead16_ok hp, readWord_writeWord hwf hp, ← lowByte_eq_ofNat, ← highByte_eq_ofNat]
  exact ⟨rfl, rfl, read_writeWord hwf hp w, writeWord_frame p w s⟩

/-- Settles O47. -/
theorem wordAccessAtTheTopFails : Obligations.WordAccessAtTheTopFails := by
  refine fun s w => ⟨rfl, rfl, fun p hp => ?_⟩
  rw [hostRead16_ok hp, wordOf_readByte]

/-- Settles O48: the range check, and the read after a sequence was written. -/
theorem writeRangeLandsOrFailsWhole : Obligations.WriteRangeLandsOrFailsWhole := by
  refine fun s start bytes hwf => ⟨fun hlen => ?fails, fun hlen => ?lands⟩
  case fails => rw [hostWriteRange, if_pos hlen]
  case lands =>
    rw [hostWriteRange, if_neg (by omega)]
    exact ⟨rfl, read_writeList hwf hlen, rfl⟩

theorem hostLoad_too_long {program : List Byte} (h : ∀ r, s.engine ≠ .faulted r) (hlen : program.length > 32768) :
    hostLoad program s = (.fails (.programTooLarge program.length), s) := by
  rw [hostLoad_eq program h, romCapacity, if_pos hlen]

theorem hostLoad_ok {program : List Byte} (h : ∀ r, s.engine ≠ .faulted r) (hlen : program.length ≤ 32768) :
    hostLoad program s =
      (.done, writeWord resetVector loadBase { s with mem := s.mem.writeList loadBase.toNat program }) := by
  rw [hostLoad_eq program h, romCapacity, if_neg (by omega)]

/-- A loaded program stands from 0x8000 up, with the vector word 0x8000 over it. -/
theorem read_hostLoad {program : List Byte} (hwf : s.mem.wf = true) (h : ∀ r, s.engine ≠ .faulted r)
    (hlen : program.length ≤ 32768) (q : Nat) :
    (hostLoad program s).2.mem.read q =
      if q = 65532 then 0x00 else if q = 65533 then 0x80
      else if 32768 ≤ q ∧ q < 32768 + program.length then program.getD (q - 32768) 0 else s.mem.read q := by
  have hfits : loadBase.toNat + program.length ≤ 65536 := by
    change 32768 + program.length ≤ 65536
    omega
  rw [hostLoad_ok h hlen, read_writeWord (wf_writeList hwf hfits) (by decide), read_writeList hwf hfits]
  rfl

/-- Settles O52. -/
theorem loadPlacesProgramAndVector : Obligations.LoadPlacesProgramAndVector := fun s program hwf =>
  ⟨hostLoad_too_long, fun h hlen => ⟨by rw [hostLoad_ok h hlen], read_hostLoad hwf h hlen,
    (memoryOnly_hostLoad program s).2⟩, fun _ => hostLoad_faulted program⟩

end Sys2Proof.Machine
end

section
/-! Construction, and `interpret` on a constructed engine (spec/70_reset_and_hazards.md R146 to R148). -/

namespace Sys2Proof.Machine

open Sys2Proof.Claims

theorem readByte_construct (cfg : Config) (q : Word) : readByte (construct cfg) q = 0x00 := rfl

/-- Settles O49, by the two values of `POWER_ON_STATE`; fresh memory holds the break 0x00 at 0x0000. -/
theorem constructedEngine : Obligations.ConstructedEngine := by
  rintro ⟨power, wrap⟩
  refine ⟨fun q => rfl, rfl, ?unwritten, ?zero⟩
  case unwritten =>
    rintro rfl
    exact ⟨rfl, step_unwritten (.inl rfl) rfl⟩
  case zero =>
    rintro rfl
    exact ⟨rfl, rfl⟩

theorem construct_ne_faulted (cfg : Config) (r : Fault) : (construct cfg).engine ≠ .faulted r := Engine.noConfusion

/-- Settles O51: the vector of fresh memory is 0x0000. -/
theorem stateAfterResetIsAConstructedEngineReset : Obligations.StateAfterResetIsAConstructedEngineReset :=
  fun cfg => by
    rw [hostReset_eq (construct_ne_faulted cfg), readByte_construct, readByte_construct]
    rfl

/-- The vector that `load` leaves is 0x8000, so a reset after it starts the program there. -/
theorem hostReset_hostLoad {s : State} {program : List Byte} (hwf : s.mem.wf = true)
    (h : ∀ r, s.engine ≠ .faulted r) (hlen : program.length ≤ 32768) :
    (hostReset (hostLoad program s).2).2 =
      { State.reset with pc := 0x8000, mem := (hostLoad program s).2.mem } := by
  have hengine := (memoryOnly_hostLoad program s).engine
  have hvector : wordAt (hostLoad program s).2 65532 = 32768 := by
    simp [wordAt, byteAt, read_hostLoad hwf h hlen]
  rw [hostReset_eq_wordAt (fun r hr => h r (hengine.symm.trans hr)), hvector]
  rfl

/-- Settles O53: the failing load, or the run after the reset of the loaded engine. -/
theorem interpretRunsTheLoadedProgram : Obligations.InterpretRunsTheLoadedProgram := by
  refine fun cfg fuel program => ⟨fun hlen => ?fails, fun hlen => ?runs⟩
  case fails => rw [hostInterpret, hostLoad_too_long (construct_ne_faulted cfg) hlen]
  case runs =>
    rw [← hostReset_hostLoad (construct_mem_wf cfg) (construct_ne_faulted cfg) hlen, hostInterpret,
      hostLoad_ok (construct_ne_faulted cfg) hlen]

end Sys2Proof.Machine
end

section
/-! The engine after a stop: what no host operation changes in Faulted and in Halted (spec/60_exceptions.md R128,
R134, R140). -/

namespace Sys2Proof.Machine

open Sys2Proof.Claims

variable {s : State}

/-- A run from a state whose step does not continue answers that step. -/
theorem hostRun_succ_of_stop {reply : Reply} {t : State} (h : hostStep s = (reply, t)) (hreply : reply ≠ .continues)
    (fuel : Nat) : hostRun (fuel + 1) s = (reply, t) := by
  rw [hostRun, h]
  split
  · next heq => cases heq; exact absurd rfl hreply
  · rfl

theorem hostRun_faulted {r : Fault} (he : s.engine = .faulted r) (fuel : Nat) :
    hostRun (fuel + 1) s = (.faults r, s) :=
  hostRun_succ_of_stop (hostStep_faulted he) Reply.noConfusion fuel

theorem hostInterpret_faulted {r : Fault} (he : s.engine = .faulted r) (fuel : Nat) (program : List Byte) :
    hostInterpret fuel program s = (.faults r, s) := by
  rw [hostInterpret, hostLoad_faulted program he]

/-- A run from a state whose step changes nothing changes nothing. -/
theorem hostRun_of_hostStep_fixed (h : (hostStep s).2 = s) (fuel : Nat) : (hostRun fuel s).2 = s :=
  hostRun_keeps (· = s) (fun _ ht => ht ▸ h) fuel s rfl

theorem MemoryOnly.of_eq {t : State} (h : t = s) : MemoryOnly s t := h ▸ .refl s

/-- The five memory accessors and `load` change memory only, and so does everything that changes nothing. -/
theorem memoryOnly_applyHostOp (hstep : (hostStep s).2 = s) (op : HostOp)
    (hreset : op = .reset → (hostReset s).2 = s)
    (hinterpret : ∀ fuel program, op = .interpret fuel program → (hostInterpret fuel program s).2 = s) :
    MemoryOnly s (applyHostOp op s).2 := by
  cases op with
  | read q => exact .refl s
  | write q w => exact memoryOnly_hostWrite q w s
  | read16 q => exact memoryOnly_hostRead16 q s
  | write16 q w => exact memoryOnly_hostWrite16 q w s
  | writeRange start bytes => exact memoryOnly_hostWriteRange start bytes s
  | load program => exact memoryOnly_hostLoad program s
  | reset => exact .of_eq (hreset rfl)
  | step => exact .of_eq hstep
  | run fuel => exact .of_eq (hostRun_of_hostStep_fixed hstep fuel)
  | interpret fuel program => exact .of_eq (hinterpret fuel program rfl)

/-- Settles O57. -/
theorem faultedIsAbsorbing : Obligations.FaultedIsAbsorbing := by
  intro op s r he
  have hmemory : MemoryOnly s (applyHostOp op s).2 := by
    refine memoryOnly_applyHostOp ?_ op (fun _ => ?_) (fun fuel program _ => ?_)
    · rw [hostStep_faulted he]
    · rw [hostReset_faulted he]
    · rw [hostInterpret_faulted he]
  exact ⟨hmemory.2, hostStep_faulted he, hostReset_faulted he, hostRun_faulted he,
    fun fuel program => ⟨hostLoad_faulted program he, hostInterpret_faulted he fuel program⟩⟩

/-- Settles O58: from Halted a step changes nothing, so reset and `interpret` are the only exceptions. -/
theorem onlyResetLeavesHalted : Obligations.OnlyResetLeavesHalted := by
  intro op s he
  by_cases hreset : op = .reset
  · exact .inl hreset
  by_cases hinterpret : ∃ fuel program, op = .interpret fuel program
  · exact .inr (.inl hinterpret)
  · have hstep : (hostStep s).2 = s := by rw [hostStep_halted he]
    have hmemory := memoryOnly_applyHostOp hstep op (fun h => absurd h hreset)
      (fun fuel program h => absurd ⟨fuel, program, h⟩ hinterpret)
    exact .inr (.inr hmemory.2)

end Sys2Proof.Machine
end

section
/-! Runs: where they end, that more fuel does not change one that has ended, and a run that never ends
(spec/40_execution_cycle.md R86 to R88, spec/70_reset_and_hazards.md R160). -/

namespace Sys2Proof.Machine

open Sys2Proof.Claims

variable {s t : State}

/-- A run after a step that continues is the rest of the run. -/
theorem hostRun_succ_of_continues (h : hostStep s = (.continues, t)) (fuel : Nat) :
    hostRun (fuel + 1) s = hostRun fuel t := by
  rw [hostRun, h]

/-- The byte before a PC that was counted one up is the byte it was counted up from. -/
theorem byteAt_before_succ (t : State) {p q : Word} (h : q.toNat = (p.toNat + 1) % 65536) :
    byteAt t (q.toNat + 65535) = byteAt t p.toNat := by
  rw [byteAt, byteAt, h, show ((p.toNat + 1) % 65536 + 65535) % 65536 = p.toNat % 65536 by omega]

/-- How a run can have ended at `t`: at a break, whose byte is before PC, at a fault, or out of fuel. -/
def RunOutcome (reply : Reply) (t : State) : Prop :=
  (reply = .halts ∧ t.engine = .halted ∧ byteAt t (t.pc.toNat + 65535) = 0x00) ∨
    (∃ r, reply = .faults r ∧ t.engine = .faulted r) ∨ (reply = .outOfFuel ∧ t.Executable)

/-- A host step from an executable state continues in one, or it is the end of a run; memory stays. -/
theorem hostStep_executable (hx : s.Executable) : ∃ reply t, hostStep s = (reply, t) ∧ t.mem = s.mem ∧
    ((reply = .continues ∧ t.Executable) ∨ (reply ≠ .continues ∧ RunOutcome reply t)) := by
  obtain ⟨t, ht⟩ := step_next_of_idle_or_running hx.1
  have hframe := step_frame ht
  refine ⟨_, t, hostStep_of_next ht, hframe.mem, ?_⟩
  rcases faulted_or_not t with ⟨r, hr⟩ | hnofault
  · rw [hr]
    exact .inr ⟨Reply.noConfusion, .inr (.inl ⟨r, rfl, hr⟩)⟩
  rcases engine_of_step_unfaulted hx ht hnofault with ⟨hop, he⟩ | ⟨-, he⟩
  · have hrow : lookup (byteAt s s.pc.toNat) = some ⟨.brk, 1, 7, .implicit⟩ := by rw [hop]; rfl
    obtain ⟨hadvance, -⟩ := stepAdvancesPCByTheRowsLength s t _ hx hrow ht hnofault
    rw [he]
    refine .inr ⟨Reply.noConfusion, .inl ⟨rfl, he, ?_⟩⟩
    rw [byteAt_before_succ t (hadvance Mnemonic.noConfusion), byteAt, hframe.mem, ← hop, byteAt]
  · rw [he]
    exact .inl ⟨rfl, .inr he, hframe.unwritten.trans hx.2⟩

theorem hostRun_outcome (fuel : Nat) (hx : s.Executable) :
    (hostRun fuel s).2.mem = s.mem ∧ RunOutcome (hostRun fuel s).1 (hostRun fuel s).2 := by
  induction fuel generalizing s with
  | zero => exact ⟨rfl, .inr (.inr ⟨rfl, hx⟩)⟩
  | succ fuel ih =>
    obtain ⟨reply, t, hstep, hmem, ⟨rfl, hxt⟩ | ⟨hreply, hend⟩⟩ := hostStep_executable hx
    · rw [hostRun_succ_of_continues hstep, ← hmem]
      exact ih hxt
    · rw [hostRun_succ_of_stop hstep hreply]
      exact ⟨hmem, hend⟩

/-- Settles O54, by induction on the fuel. -/
theorem runEndsAtABreakOrAFault : Obligations.RunEndsAtABreakOrAFault := by
  intro fuel s t reply hx hrun
  have houtcome := hostRun_outcome fuel hx
  rw [hrun] at houtcome
  exact houtcome

/-- Settles O55, by induction on the fuel: both runs take the same first step. -/
theorem finishedRunsIgnoreExtraFuel : Obligations.FinishedRunsIgnoreExtraFuel := by
  intro fuel extra s t reply hrun hfinished
  induction fuel generalizing s with
  | zero =>
    cases hrun
    exact absurd rfl hfinished
  | succ fuel ih =>
    rw [Nat.add_right_comm]
    rcases hstep : hostStep s with ⟨reply', u⟩
    by_cases hreply : reply' = .continues
    · subst hreply
      rw [hostRun_succ_of_continues hstep] at hrun ⊢
      exact ih u hrun
    · rw [hostRun_succ_of_stop hstep hreply] at hrun ⊢
      exact hrun

/-- A step that jumps to its own address writes the control state only. -/
theorem step_self_jump (hx : s.Executable) (hop : byteAt s s.pc.toNat = 0x4C) (hpc : s.pc ≠ 0xFFFE#16)
    (htarget : wordAt s (s.pc.toNat + 1) = s.pc.toNat) : step s = .next { s with engine := .running } := by
  have hrow : rowOf (readByte s s.pc) = some ⟨0x4C, ⟨.jmp, 3, 3, .absolute⟩, fun l h => .jmpAbs (wordOf h l)⟩ := by
    rw [readByte_pc, hop]
    rfl
  rw [step_executable hx, fetchInstr_of_rowOf hrow]
  simp only [exec_jmpAbs _ hpc, operand_eq_ofNat, htarget, BitVec.ofNat_toNat, BitVec.setWidth_eq]

theorem hostRun_of_continues_fixed (h : hostStep s = (.continues, s)) (fuel : Nat) :
    hostRun fuel s = (.outOfFuel, s) := by
  induction fuel with
  | zero => rfl
  | succ fuel ih => rw [hostRun_succ_of_continues h, ih]

/-- Settles O56: after the first jump the state is Running, and from there the step changes nothing. -/
theorem selfJumpRunsForever : Obligations.SelfJumpRunsForever := by
  intro fuel s hx hop hpc htarget
  have hrunning : State.Executable { s with engine := .running } := ⟨.inr rfl, hx.2⟩
  have hfirst := hostStep_of_next (step_self_jump hx hop hpc htarget)
  have hagain := hostStep_of_next (step_self_jump hrunning hop hpc htarget)
  rw [hostRun_succ_of_continues hfirst]
  exact hostRun_of_continues_fixed hagain fuel

end Sys2Proof.Machine
end

section
/-! An instruction the host writes at PC is the one that is fetched: no prefetch (spec/20_memory.md R54, D15). -/

namespace Sys2Proof.Machine

open Sys2Proof.Claims

variable {s : State}

theorem memoryOnly_hostWrites (address : Nat) (ws : List Byte) (s : State) :
    MemoryOnly s (hostWrites address ws s) := by
  induction ws generalizing address s with
  | nil => exact .refl s
  | cons w ws ih => exact (memoryOnly_hostWrite _ w s).trans (ih (address + 1) _)

theorem byteAt_hostWrite (hwf : s.mem.wf = true) (address : Nat) (w : Byte) (q : Nat) :
    byteAt (hostWrite (BitVec.ofNat 16 address) w s).2 q =
      if q % 65536 = address % 65536 then w else byteAt s q := by
  rw [byteAt, hostWrite, writeByte_mem, read_write hwf, BitVec.toNat_ofNat]
  rfl

theorem byteAt_add_65536 (s : State) (address : Nat) : byteAt s (address + 65536) = byteAt s address := by
  rw [byteAt, Nat.add_mod_right, byteAt]

/-- What the bytes read as after up to 65536 writes that go around the address space at most once. -/
theorem byteAt_hostWrites (hwf : s.mem.wf = true) (address : Nat) {ws : List Byte} (hlen : ws.length ≤ 65536)
    {k : Nat} (hk : k < 65536) : byteAt (hostWrites address ws s) (address + k) =
      if k < ws.length then ws.getD k 0 else byteAt s (address + k) := by
  induction ws generalizing address s k with
  | nil => rfl
  | cons w ws ih =>
    rw [List.length_cons] at hlen ⊢
    have hwf' : (hostWrite (BitVec.ofNat 16 address) w s).2.mem.wf = true := writeByte_wf hwf _ _
    rw [hostWrites]
    cases k with
    | zero =>
      have haround := ih hwf' (address + 1) (by omega) (k := 65535) (by omega)
      rw [if_neg (by omega), byteAt_hostWrite hwf, if_pos (by omega), Nat.add_assoc, byteAt_add_65536] at haround
      exact haround
    | succ k =>
      have hother : ¬ (address + 1 + k) % 65536 = address % 65536 := by omega
      rw [Nat.add_comm k, ← Nat.add_assoc, Nat.add_comm 1 k, ih hwf' (address + 1) (by omega) (by omega),
        byteAt_hostWrite hwf]
      simp only [if_neg hother, List.getD_cons_succ, Nat.add_lt_add_iff_right]

/-- The fetch after the host has written up to three bytes at PC sees them. -/
theorem fetchBytes_hostWrites (hwf : s.mem.wf = true) {ws : List Byte} (hlen : ws.length ≤ 3) :
    ∃ rest, fetchBytes (hostWrites s.pc.toNat ws s) = ws ++ rest := by
  have hbyte (k : Nat) (hk : k < ws.length) :
      byteAt (hostWrites s.pc.toNat ws s) (s.pc.toNat + k) = ws.getD k 0 := by
    rw [byteAt_hostWrites hwf _ (by omega) (by omega), if_pos hk]
  rw [fetchBytes_eq, (memoryOnly_hostWrites s.pc.toNat ws s).pc]
  match ws with
  | [] => simp
  | [_] => simpa using hbyte 0 (by simp)
  | [_, _] => simpa using And.intro (hbyte 0 (by simp)) (hbyte 1 (by simp))
  | [_, _, _] =>
    simpa using And.intro (hbyte 0 (by simp)) (And.intro (hbyte 1 (by simp)) (hbyte 2 (by simp)))

theorem length_encode_le (i : Instr) : (encode i).length ≤ 3 := by
  rw [encode, List.length_cons]
  cases i.operand with
  | none | byte o | word w => simp [Operand.bytes]

/-- Settles O17: the fetch sees the encoding, and decoding gives the instruction back. -/
theorem hostWrittenInstructionIsFetched : Obligations.HostWrittenInstructionIsFetched := by
  intro i s hwf hx
  have hmemory := memoryOnly_hostWrites s.pc.toNat (encode i) s
  have hx' : (hostWrites s.pc.toNat (encode i) s).Executable := by
    rw [State.Executable, hmemory.engine, hmemory.unwritten]
    exact hx
  obtain ⟨rest, hfetch⟩ := fetchBytes_hostWrites hwf (length_encode_le i)
  have hdecode := decode_encode_append i rest
  rw [← hfetch] at hdecode
  rw [step_executable hx', fetchInstr_of_decode hdecode]

end Sys2Proof.Machine
end
